-- ==== Sys2Proof/Word.lean ====
section
/-! DEFINITION. The word types of the E93 core: the 16-bit instruction word, the byte of the memory
representation, and the 4-bit register index (spec/00_scope.md R5, R7). -/

namespace Sys2Proof

/-- One byte, the unit in which the model stores data memory (the spec's unit of access is the whole
data word; see notes/assumptions/8.md). -/
abbrev Byte := BitVec 8

/-- An instruction word: `ILEN = 16` bits (R5, R50). -/
abbrev InstrWord := BitVec 16

/-- A register index: 4 bits, so every index an instruction can carry names one of the `NREGS = 16`
registers (R5, R10). -/
abbrev RegIndex := Fin 16

end Sys2Proof
end

