-- ==== Sys2Proof/Machine/Flags.lean ====
section
/-! DEFINITION. What the ALU produces: a result and nothing else. There are no flags, condition codes or
predicate registers (spec/10_state.md R15), so this file holds the result of each ALU operation
(spec/40_alu.md R90 to R93, spec/30_encoding.md R69) and no flag. -/

namespace Sys2Proof.Machine

/-- The three ALU operations (R69). -/
inductive AluOp where
  | and
  | add
  | or
  deriving DecidableEq, Repr

/-- The ALU's result, for operands of any one width: AND and OR bitwise, ADD modulo `2^n`, the carry
discarded (R93). -/
def aluResult {n : Nat} : AluOp → BitVec n → BitVec n → BitVec n
  | .and, a, b => a &&& b
  | .add, a, b => a + b
  | .or, a, b => a ||| b

end Sys2Proof.Machine
end

