-- ==== Sys2Proof/Config.lean ====
section
/-! DEFINITION. The implementation parameters of spec/00_scope.md R6 and the launch: everything the host
supplies before a run and nothing changes during one (spec/70_reset_and_hazards.md R150 "load").
A claim about every platform quantifies over a `Launch`; `Launch.specDefault` is the one the spec's
defaults give. -/

namespace Sys2Proof

/-- The opcode map (R59): a lookup table, the source prints only the ALU's entry. -/
structure Opcodes where
  /-- `OPC_ALU`, fixed by the source to 1 (R5). -/
  alu : BitVec 4
  /-- `OPC_ADDI`. -/
  addi : BitVec 4
  /-- `OPC_ORI`. -/
  ori : BitVec 4
  /-- `OPC_LW`. -/
  lw : BitVec 4
  /-- `OPC_SW`. -/
  sw : BitVec 4
  /-- `OPC_J`. -/
  j : BitVec 4
  deriving DecidableEq, Repr

/-- The spec's opcode numbers (R59, decision D3). UNVERIFIED against the original software, see
notes/assumptions/2.md; unsafe only for claims about concrete words other than AND words. -/
def Opcodes.specDefault : Opcodes := { alu := 1, addi := 2, ori := 3, lw := 4, sw := 5, j := 6 }

/-- The parameters of R6 that are neither memory contents nor reset values. -/
structure Params where
  /-- `XLEN`: bits of a general register and of a data word (decision D1). -/
  xlen : Nat
  /-- `PCLEN`: bits of the program counter (decision D2). -/
  pclen : Nat
  /-- The opcode map (decision D3). -/
  opcodes : Opcodes
  /-- `ALU_FUNC_BITS`: how many low bits the decoder reads as the ALU function code, 4 or 2 (conflict C1). -/
  aluFuncBits : Nat
  /-- `J_REPLACE_BITS`: how many low pc bits the jump mask clears, 9 or 13 (conflict C2). -/
  jReplaceBits : Nat
  /-- `UNIFIED_MEM`: whether a store can change what a later fetch reads (decision D7). -/
  unifiedMem : Bool
  /-- `DMEM_BYTES`: size of the data address space in address units (decision D9). -/
  dmemBytes : Nat
  deriving DecidableEq, Repr

/-- The default column of R6's table. UNVERIFIED against the original software, see
notes/assumptions/1.md to 4.md, 9.md and 14.md. -/
def Params.specDefault : Params where
  xlen := 16
  pclen := 16
  opcodes := Opcodes.specDefault
  aluFuncBits := 4
  jReplaceBits := 9
  unifiedMem := false
  dmemBytes := 2 ^ 16

/-- `WORD_BYTES = XLEN / 8`, the address units one data word spans (R6, R35). -/
def Params.wordBytes (p : Params) : Nat := p.xlen / 8

/-- A data word and the value of a general register: `XLEN` bits (R10, R31). -/
abbrev Params.Word (p : Params) : Type := BitVec p.xlen

/-- A value of the program counter: `PCLEN` bits (R13). -/
abbrev Params.PcWord (p : Params) : Type := BitVec p.pclen

/-- Which end of a stored word lies at its lowest address. The spec fixes no byte order (R38, decision D11). -/
inductive ByteOrder where
  /-- The least significant byte lies lowest. -/
  | little
  /-- The most significant byte lies lowest. -/
  | big
  deriving DecidableEq, Repr

/-- What the host loads before reset; constant during a run (R21, R150). -/
structure Launch where
  /-- The parameters of R6. -/
  params : Params
  /-- The byte order of the backing store, the model's own constant: R38 fixes none, so a claim over all
  launches holds for both (notes/assumptions/8.md, safe). -/
  byteOrder : ByteOrder
  /-- `PROGRAM`, the contents of instruction memory: word `k` is fetched when `pc = 2 * k` (R18). -/
  program : List InstrWord
  /-- `DMEM_INIT`, the contents of data memory at reset, as listed bytes over the value an unlisted
  byte reads as; every function from admitted addresses to words is one of these (R22, decision D10). -/
  dmemInit : List Host.Cell
  /-- `RESET_PC` (R22, decision D13). -/
  resetPc : params.PcWord
  /-- `RESET_REG`, generalised to one value per register as decision D13 offers (R22). -/
  resetReg : Vector params.Word 16
  deriving DecidableEq, Repr

/-- The launch of `State.reset`: the spec's default parameters, `RESET_PC = 0` and `RESET_REG = 0` (R22).
`PROGRAM` and `DMEM_INIT` are launch arguments the spec gives no default for. DESIGN CHOICE: no program
word and nothing listed in data memory (notes/assumptions/7.md and 10.md; unsafe for a claim that
reads a data word of `State.reset`), and the little-endian backing store (notes/assumptions/8.md, safe). -/
def Launch.specDefault : Launch where
  params := Params.specDefault
  byteOrder := .little
  program := []
  dmemInit := []
  resetPc := 0#16
  resetReg := Vector.replicate 16 0#16

end Sys2Proof
end

