-- ==== Sys2Proof/Syntax.lean ====
section
/-! DEFINITION. The instruction type: the six machine variants of spec/30_encoding.md R51 and R52, one
constructor per row of spec/opcode_table.json. The two assembler-side variants (`Asciiz`, `ErrorLine`)
are no machine instructions; they stand in Sys2Proof/Machine/Assembler.lean. -/

namespace Sys2Proof

/-- A machine instruction (R51). The set is closed: there is no other (R52). -/
inductive Instr where
  /-- `And{r1, r2}`: AND of two registers, result to `r1` (R90). -/
  | and (r1 r2 : RegIndex)
  /-- `AddImmediate{r1, immediate}`: the immediate is unsigned, 0 to 255 (R91). -/
  | addi (r1 : RegIndex) (imm : BitVec 8)
  /-- `OrImmediate{r1, immediate}`: the immediate is unsigned, 0 to 255 (R92). -/
  | ori (r1 : RegIndex) (imm : BitVec 8)
  /-- `LoadWord{r1, r2}`: `r2` holds the address, `r1` receives the value (R100). -/
  | lw (r1 r2 : RegIndex)
  /-- `StoreWord{r1, r2}`: `r2` holds the address, `r1` the value to store (R101). -/
  | sw (r1 r2 : RegIndex)
  /-- `JumpImmediate{immediate}`: the target as a byte address, even, 0 to `0x1FFE` (R51, R110, R116). -/
  | j (imm : BitVec 13)
  deriving DecidableEq, Repr

end Sys2Proof
end

