-- ==== Sys2Proof/WellFormed.lean ====
section
/-! DEFINITION. Which instructions and which parameters are well formed. The field ranges of R51 that the
types already give (register index 0 to 15, immediate 0 to 255, jump immediate below `2^13`) need no
check; the evenness of the jump immediate does. The parameter constraints are the constraint column
of R6 and the last sentence of R59. -/

namespace Sys2Proof

/-- R51's field ranges: the immediate of J is even. -/
def Instr.wellFormed : Instr → Bool
  | .and _ _ => true
  | .addi _ _ => true
  | .ori _ _ => true
  | .lw _ _ => true
  | .sw _ _ => true
  | .j imm => !imm.getLsbD 0

/-- R59: `OPC_ALU` is 1 and the six opcodes are pairwise distinct. -/
abbrev Opcodes.WellFormed (o : Opcodes) : Prop :=
  o.alu = 1#4 ∧ [o.alu, o.addi, o.ori, o.lw, o.sw, o.j].Nodup

/-- The constraint column of R6. -/
abbrev Params.WellFormed (p : Params) : Prop :=
  p.xlen % 8 = 0 ∧ 16 ≤ p.xlen ∧ 13 ≤ p.pclen ∧ p.opcodes.WellFormed ∧
    (p.aluFuncBits = 4 ∨ p.aluFuncBits = 2) ∧ (p.jReplaceBits = 9 ∨ p.jReplaceBits = 13) ∧
    p.dmemBytes ≤ 2 ^ p.xlen

end Sys2Proof
end

