-- ==== Sys2Proof/Decode.lean ====
section
/-! DEFINITION. The decoder and the encoder of spec/30_encoding.md (R53 to R65), written from its field
layouts, and the host's view of the decoder on a word of spec/opcode_table.json. Every function takes
the opcode map and the function-field width from the parameters, since the source prints neither. -/

namespace Sys2Proof

/-- Why a word is no instruction (R62): the two kinds of illegal encoding, each with the word. -/
inductive DecodeError where
  /-- The opcode is none of the six defined values. -/
  | illegalOpcode (w : InstrWord)
  /-- The opcode is `OPC_ALU` and the function code is not 1. -/
  | illegalFunction (w : InstrWord)
  deriving DecidableEq, Repr

/-- `opcode`, bits 15:12 (R53). -/
def opcodeField (w : InstrWord) : BitVec 4 := w.extractLsb' 12 4

/-- `r1`, bits 11:8 (R53). -/
def r1Field (w : InstrWord) : RegIndex := (w.extractLsb' 8 4).toFin

/-- `r2`, bits 7:4 (R53). -/
def r2Field (w : InstrWord) : RegIndex := (w.extractLsb' 4 4).toFin

/-- `imm8`, bits 7:0 (R53). -/
def imm8Field (w : InstrWord) : BitVec 8 := w.extractLsb' 0 8

/-- `jfield`, bits 11:0 (R53). -/
def jField (w : InstrWord) : BitVec 12 := w.extractLsb' 0 12

/-- `jimm = jfield << 1`, 13 bits with bit 0 clear (R57). -/
def jimmOf (jfield : BitVec 12) : BitVec 13 := jfield ++ 0#1

/-- The function code as the ALU decoder reads it: the low `ALU_FUNC_BITS` bits, `w[3:0]` at the default
(R60, R61, conflict C1). -/
def funcCode (p : Params) (w : InstrWord) : Nat := w.toNat % 2 ^ p.aluFuncBits

/-- R60, arm by arm. Bits 3:0 of an LW or SW word are not read (R63 a, decision D5;
notes/assumptions/5.md, UNVERIFIED, unsafe if the original software refuses such words). -/
def decode (p : Params) (w : InstrWord) : Except DecodeError Instr :=
  if opcodeField w = p.opcodes.alu then
    if funcCode p w = 1 then .ok (.and (r1Field w) (r2Field w)) else .error (.illegalFunction w)
  else if opcodeField w = p.opcodes.addi then .ok (.addi (r1Field w) (imm8Field w))
  else if opcodeField w = p.opcodes.ori then .ok (.ori (r1Field w) (imm8Field w))
  else if opcodeField w = p.opcodes.lw then .ok (.lw (r1Field w) (r2Field w))
  else if opcodeField w = p.opcodes.sw then .ok (.sw (r1Field w) (r2Field w))
  else if opcodeField w = p.opcodes.j then .ok (.j (jimmOf (jField w)))
  else .error (.illegalOpcode w)

/-- A register index as its 4-bit field. -/
def regBits (r : RegIndex) : BitVec 4 := BitVec.ofFin r

/-- Format R, the AND function code in bits 3:0 (R54). -/
def formatR (op : BitVec 4) (r1 r2 : RegIndex) : InstrWord := op ++ regBits r1 ++ regBits r2 ++ 1#4

/-- Format M, bits 3:0 written as zero (R55). -/
def formatM (op : BitVec 4) (r1 r2 : RegIndex) : InstrWord := op ++ regBits r1 ++ regBits r2 ++ 0#4

/-- Format I (R56). -/
def formatI (op : BitVec 4) (r1 : RegIndex) (imm : BitVec 8) : InstrWord := op ++ regBits r1 ++ imm

/-- Format J: the byte address shifted right by 1 (R57). -/
def formatJ (op : BitVec 4) (imm : BitVec 13) : InstrWord := op ++ imm.extractLsb' 1 12

/-- The encoder, R65. Its domain is the well-formed instructions; it never sees another (R65, R66). -/
def encode (p : Params) : Instr → InstrWord
  | .and r1 r2 => formatR p.opcodes.alu r1 r2
  | .addi r1 imm => formatI p.opcodes.addi r1 imm
  | .ori r1 imm => formatI p.opcodes.ori r1 imm
  | .lw r1 r2 => formatM p.opcodes.lw r1 r2
  | .sw r1 r2 => formatM p.opcodes.sw r1 r2
  | .j imm => formatJ p.opcodes.j imm

/-- The opcode an instruction carries (R51 "Every machine-instruction variant carries an opcode"). -/
def opcodeOf (o : Opcodes) : Instr → BitVec 4
  | .and _ _ => o.alu
  | .addi _ _ => o.addi
  | .ori _ _ => o.ori
  | .lw _ _ => o.lw
  | .sw _ _ => o.sw
  | .j _ => o.j

/-- The instruction word that the opcode table's bit numbering gives: bit 0 is the word's least
significant bit, and every bit above the `nbits` given is 0. An instruction is one 16-bit word, so
bits from 16 upward belong to no instruction. -/
def tableWord (nbits w : Nat) : InstrWord := BitVec.ofNat 16 (w % 2 ^ nbits)

/-- The instruction this decoder reads, at the spec's default parameters, from a word of
spec/opcode_table.json; none where it raises. -/
def decodeTableWord (nbits w : Nat) : Option Instr := (decode Params.specDefault (tableWord nbits w)).toOption

end Sys2Proof
end

