-- ==== Sys2Proof/Machine/Memory.lean ====
section
/-! DEFINITION. Data memory as data: a list of (address, byte) cells in one canonical form, and the whole-word
read and write that are its only use by the machine (spec/20_memory.md R31, R33, R34, R38). A byte of
a word is a fact of the representation, never of a program: nothing above this file reads or writes
less than a whole word. -/

namespace Sys2Proof.Machine

/-- Data memory: cells with strictly rising addresses, none equal to what an unlisted address reads as. -/
abbrev Memory := List Host.Cell

/-- What an unlisted address reads as. DESIGN CHOICE: zero; the spec leaves the contents at reset to
`DMEM_INIT`, whose non-zero bytes are listed (notes/assumptions/7.md; unsafe only for a claim about a
launch that leaves `dmemInit` empty, such as that of `State.reset`). -/
def Memory.unlisted : Byte := 0#8

/-- The canonical form. -/
abbrev Memory.wf (m : Memory) : Prop :=
  m.Pairwise (fun c d => c.1 < d.1) ∧ ∀ c ∈ m, c.2 ≠ Memory.unlisted

/-- Every listed address lies in the data address space of `bound` units (R6 `DMEM_BYTES`). -/
abbrev Memory.below (m : Memory) (bound : Nat) : Prop := ∀ c ∈ m, c.1 < bound

/-- The byte at an address. -/
def Memory.readByte : Memory → Nat → Byte
  | [], _ => Memory.unlisted
  | c :: m, a => if c.1 = a then c.2 else Memory.readByte m a

/-- A cell in front of a canonical tail, left out when its byte is what an unlisted address reads as. -/
def Memory.cons (a : Nat) (b : Byte) (m : Memory) : Memory :=
  if b = Memory.unlisted then m else (a, b) :: m

/-- Writes one byte, keeping the canonical form. -/
def Memory.writeByte : Memory → Nat → Byte → Memory
  | [], a, b => Memory.cons a b []
  | c :: m, a, b =>
    if a < c.1 then Memory.cons a b (c :: m)
    else if a = c.1 then Memory.cons a b m
    else c :: Memory.writeByte m a b

/-- The `n` bytes from `a` upward as one number, in the byte order of the backing store (R38;
notes/assumptions/8.md). -/
def Memory.readBytes (o : ByteOrder) (m : Memory) (a : Nat) : Nat → Nat
  | 0 => 0
  | n + 1 =>
    match o with
    | .little => (Memory.readByte m a).toNat + 256 * Memory.readBytes o m (a + 1) n
    | .big => Memory.readBytes o m (a + 1) n + 256 ^ n * (Memory.readByte m a).toNat

/-- Writes the low `n` bytes of a number from `a` upward, in the byte order of the backing store. -/
def Memory.writeBytes (o : ByteOrder) (m : Memory) (a : Nat) : Nat → Nat → Memory
  | 0, _ => m
  | n + 1, v =>
    match o with
    | .little => Memory.writeBytes o (Memory.writeByte m a (BitVec.ofNat 8 v)) (a + 1) n (v / 256)
    | .big => Memory.writeBytes o (Memory.writeByte m a (BitVec.ofNat 8 (v / 256 ^ n))) (a + 1) n v

/-- The `width`-bit word that occupies the `width / 8` units from `a` (R31, R35). -/
def Memory.readWord (o : ByteOrder) (m : Memory) (width a : Nat) : BitVec width :=
  BitVec.ofNat width (Memory.readBytes o m a (width / 8))

/-- Memory with the word `v` in the units from `a` (R31, R34). -/
def Memory.writeWord {width : Nat} (o : ByteOrder) (m : Memory) (a : Nat) (v : BitVec width) : Memory :=
  Memory.writeBytes o m a (width / 8) v.toNat

/-- Memory with 16-bit words laid out from word address `k` upward, word `k` at byte address `2 * k` (R18). -/
def Memory.placeWords (o : ByteOrder) (m : Memory) : Nat → List InstrWord → Memory
  | _, [] => m
  | k, w :: ws => Memory.placeWords o (Memory.writeWord o m (2 * k) w) (k + 1) ws

end Sys2Proof.Machine
end

