-- ==== Sys2Proof/Machine/Launch.lean ====
section
/-! DEFINITION. Which launches the core accepts, and what data memory holds at reset (spec/00_scope.md R6,
spec/10_state.md R14 and R22). -/

namespace Sys2Proof

open Sys2Proof.Machine

/-- A launch the core accepts: the constraints of R6, an even `RESET_PC` (R14), and a `DMEM_INIT` that is
canonical and lies inside the data address space. Under `UNIFIED_MEM = true` the program must fit in
data memory (notes/assumptions/9.md). -/
abbrev Launch.WellFormed (l : Launch) : Prop :=
  l.params.WellFormed ∧ l.program.length ≤ 2 ^ (l.params.pclen - 1) ∧
    Memory.wf l.dmemInit ∧ Memory.below l.dmemInit l.params.dmemBytes ∧
    l.resetPc.toNat % 2 = 0 ∧
    (l.params.unifiedMem = true → 2 * l.program.length ≤ l.params.dmemBytes)

/-- DMEM at reset: `DMEM_INIT` (R22). DESIGN CHOICE: under `UNIFIED_MEM = true`, for which the spec gives no
layout, the program's words stand over it at twice their word addresses (notes/assumptions/9.md; unsafe
only for launches that set `unifiedMem`). -/
def Launch.dmemAtReset (l : Launch) : Memory :=
  if l.params.unifiedMem then Memory.placeWords l.byteOrder l.dmemInit 0 l.program else l.dmemInit

end Sys2Proof
end

