-- ==== Sys2Proof/Machine/State.lean ====
section
/-! DEFINITION. The state of the core: the closed tuple of spec/10_state.md R21, the launch it runs under,
the faults of spec/60_exceptions.md R120, and the state after reset (R22). -/

namespace Sys2Proof.Machine

/-- Which way a failing data access went (R120). -/
inductive AccessKind where
  /-- `readInt`, made by LW. -/
  | read
  /-- `writeInt`, made by SW. -/
  | write
  deriving DecidableEq, Repr

/-- The closed list of faults (R120), each with what it carries. A step that meets one sets `status` to it
and changes nothing else (R124); `step` answers `Outcome.fault` with it when the core already stands in
it and has no step (R23, R125). Safe: the machine stops where the spec ends the run. -/
inductive Fault where
  /-- Raised by the fetch of any step: the pc `a` points at no program word (R32). Safe (decision D12). -/
  | fetchFault (a : Nat)
  /-- Raised by decode: the opcode of `w` is none of the six (R62). Safe. -/
  | illegalOpcode (w : InstrWord)
  /-- Raised by decode: the ALU opcode with a function code other than 1 (R62). Safe (decision D4). -/
  | illegalFunction (w : InstrWord)
  /-- Raised by LW and SW: `addr` is not an admitted address (R36, R122). Safe (decisions D8, D9). -/
  | memFault (addr : Nat) (kind : AccessKind)
  /-- Raised by the software engine only, when handed an `Asciiz` or an `ErrorLine` (R24, R123 b). No step of
  the core raises it. Safe. -/
  | invalidInstruction
  deriving DecidableEq, Repr

/-- What the model gives no meaning. -/
inductive Refusal where
  /-- Answered by an arm of `exec` whose instruction has no meaning yet. No arm answers it. Safe. -/
  | notModelled (mnemonic : String)
  /-- Answered by `step` at an odd pc: the fetch is defined for an even pc only (R32), and a launch with an
  odd `RESET_PC` "is refused, not given a meaning" (R14, U18). No run from an accepted launch reaches one. Safe. -/
  | oddPc
  deriving DecidableEq, Repr

/-- The run status (R20). -/
inductive Status where
  /-- The core takes a step when the host grants one. -/
  | running
  /-- The run has ended in a fatal error; only reset leaves this status (R125). -/
  | faulted (f : Fault)
  deriving DecidableEq, Repr

/-- The state (R21), beside the launch, which no step changes (R21 "constants of a run"). -/
structure State where
  /-- The parameters, `PROGRAM` (which is IMEM, R18), `DMEM_INIT` and the reset values. -/
  launch : Launch
  /-- The 16 general registers; none is hardwired (R10, R11). -/
  x : Vector launch.params.Word 16
  /-- The program counter, a byte address (R13). -/
  pc : launch.params.PcWord
  /-- DMEM (R19). -/
  dmem : List Host.Cell
  /-- The run status (R20). -/
  status : Status
  deriving DecidableEq, Repr

/-- The state after reset under a launch (R22). -/
def State.resetWith (l : Launch) : State where
  launch := l
  x := l.resetReg
  pc := l.resetPc
  dmem := l.dmemAtReset
  status := .running

/-- The state after reset under the spec's defaults, with no program loaded and no data word initialised
(R22; notes/assumptions/7.md and 10.md). -/
def State.reset : State := State.resetWith Launch.specDefault

end Sys2Proof.Machine
end

