-- ==== Sys2Proof/Machine/Ops.lean ====
section
/-! DEFINITION. The named operations over the state: register read, the one commit of a step, the two memory
interfaces and the fetch (spec/20_memory.md R30 to R36), raising a fault (spec/60_exceptions.md R124).
There is no return from a fault beside it: only reset leaves `Faulted` (R125). -/

namespace Sys2Proof.Machine

/-- The parameters the state runs under. -/
abbrev State.params (s : State) : Params := s.launch.params

/-- An `XLEN`-bit word of this state. -/
abbrev State.Word (s : State) : Type := s.params.Word

/-- The byte order of the backing store of this state. -/
abbrev State.order (s : State) : ByteOrder := s.launch.byteOrder

/-- A pc value of this state. -/
abbrev State.PcWord (s : State) : Type := s.params.PcWord

/-- `x[r]` (R7, R10). -/
def State.reg (s : State) (r : RegIndex) : s.Word := s.x[r.val]

/-- The register file with `x[r] <- v`, every other register as it was; register 0 is no exception (R11). -/
def State.setReg (s : State) (r : RegIndex) (v : s.Word) : Vector s.Word 16 := s.x.set r.val v

/-- `pc + 2` modulo `2^PCLEN` (R13). -/
def State.pcPlus2 (s : State) : s.PcWord := s.pc + 2#s.params.pclen

/-- The one write-back of a completed step: registers, data memory and pc together (R23). -/
def State.commit (s : State) (x : Vector s.Word 16) (dmem : Memory) (pc : s.PcWord) : State :=
  { s with x := x, dmem := dmem, pc := pc }

/-- `x[r] <- v; pc <- pc + 2`, the end of AND, ADDI, ORI and LW (R90 to R92, R100). -/
def State.writeBack (s : State) (r : RegIndex) (v : s.Word) : State :=
  s.commit (s.setReg r v) s.dmem s.pcPlus2

/-- `raise f`: the status becomes `Faulted(f)` and nothing else changes, so the pc still holds the address
of the instruction that faulted (R124). -/
def State.raise (s : State) (f : Fault) : State := { s with status := .faulted f }

/-- R36: a data address is admitted iff it is a multiple of `WORD_BYTES` and its word lies below `DMEM_BYTES`. -/
abbrev admitted (p : Params) (addr : Nat) : Prop :=
  addr % p.wordBytes = 0 ∧ addr + p.wordBytes ≤ p.dmemBytes

/-- `MemRead(addr, XLEN)` (R33). -/
def State.memRead (s : State) (addr : s.Word) : Except Fault s.Word :=
  if admitted s.params addr.toNat then .ok (Memory.readWord s.order s.dmem s.params.xlen addr.toNat)
  else .error (.memFault addr.toNat .read)

/-- `MemWrite(addr, XLEN, v)`: data memory after the write (R34). -/
def State.memWrite (s : State) (addr v : s.Word) : Except Fault Memory :=
  if admitted s.params addr.toNat then .ok (Memory.writeWord s.order s.dmem addr.toNat v)
  else .error (.memFault addr.toNat .write)

/-- The word address `k = pc >> 1` the fetch uses (R32). -/
def State.fetchIndex (s : State) : Nat := s.pc.toNat / 2

/-- `IFetch(pc)` (R32). IMEM holds `PROGRAM` for the whole run (R45). DESIGN CHOICE: under
`UNIFIED_MEM = true` the word comes from data memory, where a store may have changed it
(notes/assumptions/9.md; unsafe only for launches that set `unifiedMem`). -/
def State.fetch (s : State) : Except Fault InstrWord :=
  match s.launch.program[s.fetchIndex]? with
  | some w => .ok (if s.params.unifiedMem then Memory.readWord s.order s.dmem 16 (2 * s.fetchIndex) else w)
  | none => .error (.fetchFault s.pc.toNat)

/-- The core's fault for a word that does not decode (R121). -/
def decodeFault : DecodeError → Fault
  | .illegalOpcode w => .illegalOpcode w
  | .illegalFunction w => .illegalFunction w

/-- Fetch, then decode; the first that fails is the fault (R23, R127). -/
def State.fetchDecode (s : State) : Except Fault Instr :=
  match s.fetch with
  | .error f => .error f
  | .ok w =>
    match decode s.params w with
    | .error e => .error (decodeFault e)
    | .ok i => .ok i

/-- A program with word `k` replaced by `w`; a shorter program is first extended with zero words. -/
def programWith : List InstrWord → Nat → InstrWord → List InstrWord
  | [], 0, w => [w]
  | _ :: ws, 0, w => w :: ws
  | [], k + 1, w => 0#16 :: programWith [] k w
  | v :: ws, k + 1, w => v :: programWith ws k w

/-- The even pc at or just below a pc; an even pc is unchanged. -/
def evenPc {n : Nat} (pc : BitVec n) : BitVec n := if pc.toNat % 2 = 0 then pc else pc - 1#n

/-- The host's load of one instruction word where the next step fetches: `PROGRAM` holds it at word address
`pc / 2` (and data memory too when the memory is unified), and the core is running at an even pc.
Everything else is unchanged (notes/assumptions/10.md). -/
def State.placeFetchWord (s : State) (w : InstrWord) : State :=
  { s with
    launch := { s.launch with program := programWith s.launch.program s.fetchIndex w }
    pc := evenPc s.pc
    dmem := if s.params.unifiedMem then Memory.writeWord s.order s.dmem (2 * s.fetchIndex) w else s.dmem
    status := .running }

end Sys2Proof.Machine
end

