-- ==== Sys2Proof/Machine/Operands.lean ====
section
/-! DEFINITION. The operand forms: a register, the zero-extended immediate of format I (spec/30_encoding.md
R58), the register-indirect address of format M (spec/41_load_store.md R102) and the jump target of
format J (spec/42_jump.md R110, R111). -/

namespace Sys2Proof.Machine

/-- `zext_n(imm8)`: the immediate is unsigned and widened with zeros (R58). -/
def immOperand (n : Nat) (imm : BitVec 8) : BitVec n := imm.setWidth n

/-- `EA = x[r2]`, exactly: no offset, no scaling, no update of the base (R102, R35). -/
def State.effectiveAddress (s : State) (r2 : RegIndex) : s.Word := s.reg r2

/-- `~(2^J_REPLACE_BITS - 1)` in `n` bits (R110). -/
def jumpMask (n replaceBits : Nat) : BitVec n := ~~~ BitVec.ofNat n (2 ^ replaceBits - 1)

/-- The new pc of J from the advanced pc `p = pc + 2`: `(p & mask) | zext(jimm)`, the source's formula taken
literally (R110, R111). -/
def jumpTarget {n : Nat} (replaceBits : Nat) (p : BitVec n) (jimm : BitVec 13) : BitVec n :=
  (p &&& jumpMask n replaceBits) ||| jimm.setWidth n

end Sys2Proof.Machine
end

