-- ==== Sys2Proof/Machine/Alu.lean ====
section
/-! DEFINITION. The ALU instructions AND, ADDI and ORI (spec/40_alu.md): `r1` is source and destination, no
flag, no fault, no memory access. -/

namespace Sys2Proof.Machine

/-- AND (R90): `x[r1] <- x[r1] & x[r2]; pc <- pc + 2`. -/
def execAnd (r1 r2 : RegIndex) (s : State) : Host.Outcome State Fault Refusal :=
  .next (s.writeBack r1 (aluResult .and (s.reg r1) (s.reg r2)))

/-- ADDI (R91): `x[r1] <- (x[r1] + zext(imm8)) mod 2^XLEN; pc <- pc + 2`. -/
def execAddi (r1 : RegIndex) (imm : BitVec 8) (s : State) : Host.Outcome State Fault Refusal :=
  .next (s.writeBack r1 (aluResult .add (s.reg r1) (immOperand s.params.xlen imm)))

/-- ORI (R92): `x[r1] <- x[r1] | zext(imm8); pc <- pc + 2`. -/
def execOri (r1 : RegIndex) (imm : BitVec 8) (s : State) : Host.Outcome State Fault Refusal :=
  .next (s.writeBack r1 (aluResult .or (s.reg r1) (immOperand s.params.xlen imm)))

end Sys2Proof.Machine
end

