-- ==== Sys2Proof/Machine/Jump.lean ====
section
/-! DEFINITION. The jump J (spec/42_jump.md), the only control transfer (R115). -/

namespace Sys2Proof.Machine

/-- J (R110): the pc first advances by 2, then its low `J_REPLACE_BITS` bits are cleared and the immediate is
OR-ed in. No register and no memory is touched, and no fault is raised here: a target outside the
program faults at the next fetch. -/
def execJ (imm : BitVec 13) (s : State) : Host.Outcome State Fault Refusal :=
  .next (s.commit s.x s.dmem (jumpTarget s.params.jReplaceBits s.pcPlus2 imm))

end Sys2Proof.Machine
end

