-- ==== Sys2Proof/Machine/LoadStore.lean ====
section
/-! DEFINITION. The load and store instructions LW and SW (spec/41_load_store.md): one whole data word between
`r1` and the address in `r2`. A failing access raises `MemFault`, which leaves registers, pc and data
memory as they were (R122, R124). -/

namespace Sys2Proof.Machine

/-- LW (R100): the address is read, then memory, then `x[r1]` is written, so `r1 = r2` is allowed. -/
def execLw (r1 r2 : RegIndex) (s : State) : Host.Outcome State Fault Refusal :=
  match s.memRead (s.effectiveAddress r2) with
  | .ok v => .next (s.writeBack r1 v)
  | .error f => .next (s.raise f)

/-- SW (R101): writes no register. -/
def execSw (r1 r2 : RegIndex) (s : State) : Host.Outcome State Fault Refusal :=
  match s.memWrite (s.effectiveAddress r2) (s.reg r1) with
  | .ok dmem => .next (s.commit s.x dmem s.pcPlus2)
  | .error f => .next (s.raise f)

end Sys2Proof.Machine
end

