-- ==== Sys2Proof/Machine/Dispatch.lean ====
section
/-! DEFINITION. One arm per instruction: the `case` of spec/10_state.md R23. -/

namespace Sys2Proof.Machine

def exec (i : Instr) (s : State) : Host.Outcome State Fault Refusal :=
  match i with
  | .and r1 r2 => Sys2Proof.Machine.execAnd r1 r2 s
  | .addi r1 imm => Sys2Proof.Machine.execAddi r1 imm s
  | .ori r1 imm => Sys2Proof.Machine.execOri r1 imm s
  | .lw r1 r2 => Sys2Proof.Machine.execLw r1 r2 s
  | .sw r1 r2 => Sys2Proof.Machine.execSw r1 r2 s
  | .j imm => Sys2Proof.Machine.execJ imm s

end Sys2Proof.Machine
end

