-- ==== Sys2Proof/Machine/Step.lean ====
section
/-! DEFINITION. The step (spec/10_state.md R23). -/

namespace Sys2Proof.Machine

/-- One step. A faulted core has none (R23, R125): the answer is its fault. A running core fetches, decodes and
executes; a fetch or decode that fails raises (R127), which is a next state with the status changed
(R124). An odd pc, which no run from an accepted launch reaches, is refused (R14, R32). -/
def step (s : State) : Host.Outcome State Fault Refusal :=
  match s.status with
  | .faulted f => .fault f
  | .running =>
    if s.pc.toNat % 2 = 1 then .refused .oddPc
    else
      match s.fetchDecode with
      | .error f => .next (s.raise f)
      | .ok i => exec i s

/-- The state with the table word stored where the next step fetches, so that this step runs it
(notes/assumptions/10.md). -/
def State.withFetchWord (s : State) (nbits w : Nat) : State := s.placeFetchWord (tableWord nbits w)

end Sys2Proof.Machine
end

