-- ==== Sys2Proof/Machine/Assembler.lean ====
section
/-! DEFINITION. The assembler's side of the contract (spec/30_encoding.md R66 and R76 to R86) and the software
engine that accepts its two non-machine variants (spec/10_state.md R24). All of it is software, outside
the hardware by spec/00_scope.md R4; it is written down because it fixes which programs are loaded and
who raises `InvalidInstruction`. Text is a list of characters. -/

namespace Sys2Proof.Machine

/-- A line of source text, without its line break. -/
abbrev Line := List Char

/-- Why a line is an `ErrorLine` (R78, R80, R81, R135). -/
inductive ParseError where
  /-- No pattern matches the line (R78 step 5). -/
  | unknownInstruction (line : Line)
  /-- A register token that is not `$r` and decimal digits, or whose number is above 15 (R78 step 3, R80, R135). -/
  | invalidRegister (token : Line)
  /-- An immediate literal whose value is above its mnemonic's range (R81). -/
  | immediateOutOfRange (literal : Line)
  deriving DecidableEq, Repr

/-- The human-readable message an `ErrorLine` carries (R51, R77): `Unknown instruction: <line>` in the words of
R78 step 5, and messages that name the offending token (R80, R135). DESIGN CHOICE: the words before the
token, and those of an immediate's message, are the model's (notes/assumptions/17.md, safe). -/
def ParseError.message : ParseError → Line
  | .unknownInstruction line =>
    ['U', 'n', 'k', 'n', 'o', 'w', 'n', ' ', 'i', 'n', 's', 't', 'r', 'u', 'c', 't', 'i', 'o', 'n', ':', ' '] ++ line
  | .invalidRegister token =>
    ['I', 'n', 'v', 'a', 'l', 'i', 'd', ' ', 'r', 'e', 'g', 'i', 's', 't', 'e', 'r', ':', ' '] ++ token
  | .immediateOutOfRange literal =>
    ['I', 'm', 'm', 'e', 'd', 'i', 'a', 't', 'e', ' ', 'o', 'u', 't', ' ', 'o', 'f', ' ', 'r', 'a', 'n', 'g', 'e', ':',
      ' '] ++ literal

/-- The document's Instruction type: the six machine variants and the two that are not (R51). -/
inductive SourceInstr where
  | machine (i : Instr)
  /-- `Asciiz{value}`: a data directive. -/
  | asciiz (value : Line)
  /-- `ErrorLine{message}`: a parse failure, which carries its diagnostic string; data and never thrown
  (R51, R77, R83). -/
  | errorLine (message : Line)
  deriving DecidableEq, Repr

/-- Everything before the first `--`, and whether there was one. -/
def splitComment : Line → Line × Bool
  | '-' :: '-' :: _ => ([], true)
  | c :: cs => (c :: (splitComment cs).1, (splitComment cs).2)
  | [] => ([], false)

/-- R78 step 1: a trailing comment is discarded, with the spaces immediately before it; a line with no comment
is left as it is, trailing spaces included (conflict C7). DESIGN CHOICE: a `--` inside the quoted text of
`.asciiz` starts a comment like any other, so that such a line becomes an `ErrorLine`; the source does not
say what it does (N13; notes/assumptions/18.md, safe: the line is refused). -/
def stripComment (line : Line) : Line :=
  if (splitComment line).2 then ((splitComment line).1.reverse.dropWhile (· == ' ')).reverse else line

/-- The double quote that delimits the text of a directive. -/
def quoteChar : Char := Char.ofNat 34

/-- A decimal digit. -/
def isDecimal (c : Char) : Bool := decide ('0' ≤ c) && decide (c ≤ '9')

/-- A lower-case hexadecimal digit (R81; upper case is accepted nowhere). -/
def isHex (c : Char) : Bool := isDecimal c || (decide ('a' ≤ c) && decide (c ≤ 'f'))

/-- The value of a digit that `isHex` accepts. -/
def digitValue (c : Char) : Nat := if isDecimal c then c.toNat - 48 else c.toNat - 87

/-- The value of a digit string in a base. -/
def digitsValue (base : Nat) (ds : Line) : Nat := ds.foldl (fun n c => base * n + digitValue c) 0

/-- A character that can stand in a register token. DESIGN CHOICE: any but the comma and the space, the two
that delimit operands in R79 (notes/assumptions/17.md, safe). -/
def isTokenChar (c : Char) : Bool := c != ',' && c != ' '

/-- The text of a register operand at the head of the text and the rest: the operand text that R78 step 3
extracts before it is converted. An operand that is not there matches nothing. -/
def takeRegister (text : Line) : Option (Line × Line) :=
  if (text.takeWhile isTokenChar).isEmpty then none else some (text.takeWhile isTokenChar, text.dropWhile isTokenChar)

/-- The separator: a comma and zero or more spaces (R79, conflict C4). -/
def dropSeparator : Line → Option Line
  | ',' :: rest => some (rest.dropWhile (· == ' '))
  | _ => none

/-- The value of the whole text as an immediate literal: decimal digits, or `0x` and lower-case hexadecimal digits
(R81). -/
def immediateValue (text : Line) : Option Nat :=
  match ['0', 'x'].isPrefixOf? text with
  | some ds => if !ds.isEmpty && ds.all isHex then some (digitsValue 16 ds) else none
  | none => if !text.isEmpty && text.all isDecimal then some (digitsValue 10 text) else none

/-- The whole text as an immediate literal with its value. A malformed literal is no `<imm>`, so the line's
pattern does not match (R79, R78 step 5). -/
def takeImmediate (text : Line) : Option (Line × Nat) := do return (text, ← immediateValue text)

/-- The number of a register token `$r<d>`, `<d>` one or more decimal digits (R79, R80). -/
def registerNumber (token : Line) : Option Nat :=
  match ['$', 'r'].isPrefixOf? token with
  | some ds => if !ds.isEmpty && ds.all isDecimal then some (digitsValue 10 ds) else none
  | none => none

/-- A register operand: a token that is not of the form `$r<d>`, or a number above 15, is a parse error that
names the token (R78 step 3, R80, R135, conflict C6). -/
def registerOf (token : Line) : Except ParseError RegIndex :=
  match registerNumber token with
  | some k => if h : k < 16 then .ok ⟨k, h⟩ else .error (.invalidRegister token)
  | none => .error (.invalidRegister token)

/-- An immediate operand of `n` bits: a literal whose value is outside the range is a parse error that names it
(R81, decision D23). -/
def immediateOf (n : Nat) (literal : Line × Nat) : Except ParseError (BitVec n) :=
  if literal.2 < 2 ^ n then .ok (BitVec.ofNat n literal.2) else .error (.immediateOutOfRange literal.1)

/-- The line of a structural match whose operands convert or do not. -/
def lineOf : Except ParseError Instr → SourceInstr
  | .ok i => .machine i
  | .error e => .errorLine e.message

/-- `<mnemonic> $r<d><sep>$r<d>` (R79). DESIGN CHOICE: of several operands that do not convert, the leftmost is
named, here and below (notes/assumptions/17.md, safe). -/
def matchTwoRegisters (head : Line) (make : RegIndex → RegIndex → Instr) (text : Line) : Option SourceInstr := do
  let a ← takeRegister (← head.isPrefixOf? text)
  let b ← takeRegister (← dropSeparator a.2)
  if b.2.isEmpty then some (lineOf (do return make (← registerOf a.1) (← registerOf b.1))) else none

/-- `<mnemonic> $r<d><sep><imm>` (R79). -/
def matchRegisterImmediate (head : Line) (make : RegIndex → BitVec 8 → Instr) (text : Line) : Option SourceInstr := do
  let a ← takeRegister (← head.isPrefixOf? text)
  let v ← takeImmediate (← dropSeparator a.2)
  return lineOf (do return make (← registerOf a.1) (← immediateOf 8 v))

/-- `J <imm>`: the literal is a word address, stored shifted left by 1 (R82, R116). -/
def matchJump (text : Line) : Option SourceInstr := do
  let v ← takeImmediate (← ['J', ' '].isPrefixOf? text)
  return lineOf (do return .j (jimmOf (← immediateOf 12 v)))

/-- `.asciiz "<text>"` (R79). DESIGN CHOICE: a quote inside the text matches nothing, since the source does
not say what it does (N13; notes/assumptions/16.md, safe). -/
def matchAsciiz (text : Line) : Option SourceInstr := do
  let rest ← ['.', 'a', 's', 'c', 'i', 'i', 'z', ' ', quoteChar].isPrefixOf? text
  let body := rest.takeWhile (· != quoteChar)
  if rest.dropWhile (· != quoteChar) == [quoteChar] then some (.asciiz body) else none

/-- R78 step 2: the directive first, then the six mnemonics in the source's order, the first match wins;
mnemonics are case-sensitive and followed by exactly one space; where no pattern matches, step 5. DEDUCED: the
`<line>` of step 5 is the line without its comment, whose text step 1 does not retain (notes/assumptions/17.md, safe). -/
def parseLine (line : Line) : SourceInstr :=
  let text := stripComment line
  let patterns := [
    matchAsciiz text,
    matchTwoRegisters ['A', 'N', 'D', ' '] .and text,
    matchRegisterImmediate ['A', 'D', 'D', 'I', ' '] .addi text,
    matchTwoRegisters ['S', 'W', ' '] .sw text,
    matchTwoRegisters ['L', 'W', ' '] .lw text,
    matchJump text,
    matchRegisterImmediate ['O', 'R', 'I', ' '] .ori text]
  (patterns.findSome? id).getD (lineOf (.error (.unknownInstruction text)))

/-- An instruction with the metadata the parser attaches (R76, R86). -/
structure SourceLine where
  number : Nat
  text : Line
  instr : SourceInstr
  deriving DecidableEq, Repr

/-- The lines from line `number` on: a line that begins with `#` gives nothing but is counted (R76). -/
def parseLinesFrom : Nat → List Line → List SourceLine
  | _, [] => []
  | n, l :: ls =>
    if l.head? = some '#' then parseLinesFrom (n + 1) ls
    else ⟨n, l, parseLine l⟩ :: parseLinesFrom (n + 1) ls

/-- A program, top to bottom; error lines are collected beside the others (R76, R77, R83). -/
def parseProgram (lines : List Line) : List SourceLine := parseLinesFrom 1 lines

/-- The fatal usage errors of the encoder and the image writer, each with what its diagnostic names (R66). -/
inductive EncodeError where
  /-- An `ErrorLine` handed to the encoder, with its message. -/
  | errorLine (message : Line)
  /-- A directive handed to the encoder, with its text. -/
  | directive (value : Line)
  /-- A character whose code does not fit the "one byte per memory word" of `.asciiz` (R84). DESIGN CHOICE: the
  source gives no code for it, so the writer refuses it (notes/assumptions/16.md, safe). -/
  | characterCode (c : Char)
  /-- A word address that four hexadecimal digits cannot write (R84). DESIGN CHOICE: the image writer refuses it
  (notes/assumptions/16.md, safe). -/
  | addressRange (address : Nat)
  deriving DecidableEq, Repr

/-- The encoder on the whole Instruction type: an `ErrorLine` or a directive is a usage error (R66). -/
def encodeSource (p : Params) : SourceInstr → Except EncodeError InstrWord
  | .machine i => .ok (encode p i)
  | .asciiz value => .error (.directive value)
  | .errorLine m => .error (.errorLine m)

/-- The word of one `.asciiz` character: its code (R84). -/
def characterWord (c : Char) : Except EncodeError InstrWord :=
  if c.toNat < 256 then .ok (BitVec.ofNat 16 c.toNat) else .error (.characterCode c)

/-- One emitted word, with the text that the optional comment on its image line echoes (R84). -/
structure Emitted where
  value : InstrWord
  /-- The original source line, or for string data the character the byte represents. -/
  echo : Line
  deriving DecidableEq, Repr

/-- The null character. -/
def nullChar : Char := Char.ofNat 0

/-- How an image line's comment writes a character of string data: the null and the space by name, any other as
itself (R84). DESIGN CHOICE: a null character inside the text of `.asciiz`, whose character set the source
leaves open (N13), is a character like any other, with the word 0 and the echo `<null>` that the terminator
has too (notes/assumptions/16.md). -/
def characterEcho (c : Char) : Line :=
  if c = nullChar then ['<', 'n', 'u', 'l', 'l', '>']
  else if c = ' ' then ['<', 's', 'p', 'a', 'c', 'e', '>']
  else [c]

/-- The terminating zero word of string data (R84). -/
def terminator : Emitted := ⟨0#16, characterEcho nullChar⟩

/-- The word of one character of string data. -/
def emitCharacter (c : Char) : Except EncodeError Emitted := do return ⟨← characterWord c, characterEcho c⟩

/-- The words a line emits: an instruction one, a directive one per character and a terminating zero (R84). -/
def emitLine (p : Params) (l : SourceLine) : Except EncodeError (List Emitted) :=
  match l.instr with
  | .machine i => .ok [⟨encode p i, l.text⟩]
  | .asciiz value => do return (← value.mapM emitCharacter) ++ [terminator]
  | .errorLine m => .error (.errorLine m)

/-- The emitted words of a program in address order (R84). -/
def emitted (p : Params) (lines : List SourceLine) : Except EncodeError (List Emitted) := do
  return (← lines.mapM (emitLine p)).flatten

/-- The image: the emitted words, the first at word address 0. This list is the `PROGRAM` argument of the
core (R84, R142). -/
def imageWords (p : Params) (lines : List SourceLine) : Except EncodeError (List InstrWord) := do
  return (← emitted p lines).map Emitted.value

/-- The software engine on the whole Instruction type: executing a directive or an error line is the fault
`InvalidInstruction` and changes nothing else (R24, R123 b). -/
def execSource (i : SourceInstr) (s : State) : Host.Outcome State Fault Refusal :=
  match i with
  | .machine m => exec m s
  | .asciiz _ => .next (s.raise .invalidInstruction)
  | .errorLine _ => .next (s.raise .invalidInstruction)

/-- The four hexadecimal digits of a word. DESIGN CHOICE: lower case, the source does not say (N12;
notes/assumptions/16.md, safe). -/
def hexDigits (w : InstrWord) : Line :=
  [w.extractLsb' 12 4, w.extractLsb' 8 4, w.extractLsb' 4 4, w.extractLsb' 0 4].map (fun d => Nat.digitChar d.toNat)

/-- The image line `<4-hex-digit address> : <4-hex-digit value>;` of the word at a word address, the optional
comment left out, since the source gives it no delimiter (R84, N12; notes/assumptions/16.md). -/
def imageLine (address : Nat) (value : InstrWord) : Except EncodeError Line :=
  if address < 2 ^ 16 then .ok (hexDigits (BitVec.ofNat 16 address) ++ [' ', ':', ' '] ++ hexDigits value ++ [';'])
  else .error (.addressRange address)

/-- One image line per word, each word at the address after the one before it (R84). -/
def imageLinesFrom : Nat → List InstrWord → Except EncodeError (List Line)
  | _, [] => .ok []
  | address, w :: ws => do return (← imageLine address w) :: (← imageLinesFrom (address + 1) ws)

/-- The memory-initialization text of a program: a line for each emitted word, addresses counting up from 0
(R84, decision D20). -/
def imageText (p : Params) (lines : List SourceLine) : Except EncodeError (List Line) := do
  imageLinesFrom 0 (← imageWords p lines)

end Sys2Proof.Machine
end

