-- ==== Sys2Proof/Machine/Control.lean ====
section
/-! DEFINITION. The decoder seen as a block: the control outputs of spec/30_encoding.md R69 and the datapath
that obeys them. It restates the instruction rules and adds nothing; an obligation says that it agrees
with `exec`. -/

namespace Sys2Proof.Machine

/-- The ALU's second operand (R69). -/
inductive AluSecond where
  /-- Register read B. -/
  | readB
  /-- `zext(imm8)`. -/
  | imm (imm : BitVec 8)
  deriving DecidableEq, Repr

/-- Where the written-back value comes from (R69). -/
inductive WriteBackSource where
  | aluResult
  | dataRead
  deriving DecidableEq, Repr

/-- The next pc of a completed instruction (R69). -/
inductive NextPc where
  | plus2
  /-- R110. -/
  | jump (imm : BitVec 13)
  deriving DecidableEq, Repr

/-- One row of R69's table. -/
structure Control where
  readA : Option RegIndex
  readB : Option RegIndex
  aluOp : Option AluOp
  aluSecond : Option AluSecond
  regWrite : Option (RegIndex × WriteBackSource)
  dataRead : Bool
  dataWrite : Bool
  nextPc : NextPc
  deriving DecidableEq, Repr

/-- R69's table, row by row. The row "illegal" has no control word: it is the decode error itself. -/
def controlOf : Instr → Control
  | .and r1 r2 => ⟨some r1, some r2, some .and, some .readB, some (r1, .aluResult), false, false, .plus2⟩
  | .addi r1 imm => ⟨some r1, none, some .add, some (.imm imm), some (r1, .aluResult), false, false, .plus2⟩
  | .ori r1 imm => ⟨some r1, none, some .or, some (.imm imm), some (r1, .aluResult), false, false, .plus2⟩
  | .lw r1 r2 => ⟨none, some r2, none, none, some (r1, .dataRead), true, false, .plus2⟩
  | .sw r1 r2 => ⟨some r1, some r2, none, none, none, false, true, .plus2⟩
  | .j imm => ⟨none, none, none, none, none, false, false, .jump imm⟩

/-- A register read port; a port that reads nothing gives zero, which nothing then uses. -/
def State.port (s : State) : Option RegIndex → s.Word
  | some r => s.reg r
  | none => 0#s.params.xlen

/-- The ALU's output on the control word; zero, unused, where there is no operation. -/
def Control.aluOut (c : Control) (s : State) : s.Word :=
  match c.aluOp, c.aluSecond with
  | some op, some .readB => Sys2Proof.Machine.aluResult op (s.port c.readA) (s.port c.readB)
  | some op, some (.imm imm) => Sys2Proof.Machine.aluResult op (s.port c.readA) (immOperand s.params.xlen imm)
  | _, _ => 0#s.params.xlen

/-- The next pc on the control word. -/
def Control.pcOut (c : Control) (s : State) : s.PcWord :=
  match c.nextPc with
  | .plus2 => s.pcPlus2
  | .jump imm => jumpTarget s.params.jReplaceBits s.pcPlus2 imm

/-- The register file after the write-back, given the word the data interface read. -/
def Control.regsOut (c : Control) (s : State) (read : s.Word) : Vector s.Word 16 :=
  match c.regWrite with
  | some (r, .aluResult) => s.setReg r (c.aluOut s)
  | some (r, .dataRead) => s.setReg r read
  | none => s.x

/-- The word the data interface answers with; zero, unused, where no read is made (R30). -/
def Control.dataIn (c : Control) (s : State) : Except Fault s.Word :=
  if c.dataRead then s.memRead (s.port c.readB) else .ok 0#s.params.xlen

/-- Data memory after the data interface's write, if one is made (R30). -/
def Control.dataOut (c : Control) (s : State) : Except Fault Memory :=
  if c.dataWrite then s.memWrite (s.port c.readB) (s.port c.readA) else .ok s.dmem

/-- The datapath: register reads, then the memory access, then register write and pc write; a failing
access discards the step (R153, R124). -/
def Control.run (c : Control) (s : State) : Host.Outcome State Fault Refusal :=
  match c.dataIn s with
  | .error f => .next (s.raise f)
  | .ok read =>
    match c.dataOut s with
    | .error f => .next (s.raise f)
    | .ok dmem => .next (s.commit (c.regsOut s read) dmem (c.pcOut s))

end Sys2Proof.Machine
end

