-- ==== Sys2Proof/Machine/Run.lean ====
section
/-! DEFINITION. The host's interactions with the core (spec/70_reset_and_hazards.md R140, R150, R151): load,
reset, step, observe, stop. Stopping is granting no further step and needs no definition. -/

namespace Sys2Proof.Machine

/-- Load followed by reset: a launch the core does not accept, such as one with an odd `RESET_PC`, is
refused (R14, R150). -/
def load (l : Launch) : Option State := if l.WellFormed then some (State.resetWith l) else none

/-- The reset event, in any state: every piece of state at its reset value, nothing survives but the launch
(R140). -/
def State.resetEvent (s : State) : State := State.resetWith s.launch

/-- One granted step: the step of R23 if the core has one, nothing if it is faulted (R150). -/
def State.grant (s : State) : State :=
  match step s with
  | .next t => t
  | .fault _ => s
  | .refused _ => s

/-- `n` granted steps. -/
def State.grants (s : State) : Nat → State
  | 0 => s
  | n + 1 => State.grants s.grant n

/-- The final state of a run: a reset followed by `n` granted steps (R151). -/
def runFinal (l : Launch) (n : Nat) : State := State.grants (State.resetWith l) n

/-- What the host observes of a data word: the word view, on admitted addresses only (R38, R150). -/
def State.observeWord (s : State) (a : Nat) : Option s.Word :=
  if admitted s.params a then some (Memory.readWord s.order s.dmem s.params.xlen a) else none

end Sys2Proof.Machine
end

