-- ==== Sys2Proof/Safety.lean ====
section
/-! DEFINITION. What a sound state is, and the contested bands of spec/93_implementation_defined.md: the inputs
on which two readings of the source differ. The model follows the spec's rule inside a band; a claim
that must hold under both readings assumes itself outside. -/

namespace Sys2Proof.Machine

/-- What reset establishes and every step keeps: an accepted launch (R6, R14), an even pc (R14), and data
memory in canonical form inside its address space. -/
abbrev State.Inv (s : State) : Prop :=
  s.launch.WellFormed ∧ s.pc.toNat % 2 = 0 ∧ Memory.wf s.dmem ∧ Memory.below s.dmem s.params.dmemBytes

/-- The value of a general register as a number, for claims that compare states of different launches. -/
def State.regVal (s : State) (r : RegIndex) : Nat := (s.reg r).toNat

/-- The value of the program counter as a number. -/
def State.pcVal (s : State) : Nat := s.pc.toNat

/-- The value of the data word that starts at an address, as a number. -/
def State.wordVal (s : State) (a : Nat) : Nat := (Memory.readWord s.order s.dmem s.params.xlen a).toNat

/-- The same state over another backing store: another byte order and other bytes. -/
def State.withStore (s : State) (o : ByteOrder) (d : Memory) : State :=
  { s with launch := { s.launch with byteOrder := o }, dmem := d }

/-- A backing store that holds the data words of `s`, each in its own byte order (R38). -/
abbrev State.SameWords (s : State) (o : ByteOrder) (d : Memory) : Prop :=
  ∀ a, admitted s.params a → Memory.readWord o d s.params.xlen a = Memory.readWord s.order s.dmem s.params.xlen a

/-- Two states at the same point of the same program under the same parameters, whatever their data and their
byte orders. -/
abbrev SameControl (s u : State) : Prop :=
  u.params = s.params ∧ u.launch.program = s.launch.program ∧ u.pcVal = s.pcVal

/-- A run that ended in a fatal error; never a successful end (R125). -/
abbrev State.Ended (s : State) : Prop := s.status ≠ .running

/-- `t` has the pc of the instruction after `s`: `pc + 2` modulo `2^PCLEN` (R13). -/
abbrev PcAdvances (s t : State) : Prop := t.pcVal = (s.pcVal + 2) % 2 ^ s.params.pclen

/-- Nothing but register `r` and the pc differs between `s` and `t`: the frame of AND, ADDI, ORI and LW. -/
abbrev OnlyRegisterChanges (s t : State) (r : RegIndex) : Prop :=
  (∀ q, q ≠ r → t.regVal q = s.regVal q) ∧ (∀ a, Memory.readByte t.dmem a = Memory.readByte s.dmem a) ∧
    t.status = s.status ∧ t.launch = s.launch

/-- The registers an instruction reads (R12). -/
def readsOf : Instr → List RegIndex
  | .and r1 r2 => [r1, r2]
  | .addi r1 _ => [r1]
  | .ori r1 _ => [r1]
  | .lw _ r2 => [r2]
  | .sw r1 r2 => [r2, r1]
  | .j _ => []

/-- The register an instruction writes, if any (R12). -/
def writesOf : Instr → List RegIndex
  | .and r1 _ => [r1]
  | .addi r1 _ => [r1]
  | .ori r1 _ => [r1]
  | .lw r1 _ => [r1]
  | .sw _ _ => []
  | .j _ => []

/-- The address and the value of the store that the next step of `s` makes, if it makes one (R34). -/
def State.storeOf (s : State) : Option (Nat × Nat) :=
  match s.status, s.fetchDecode with
  | .running, .ok (.sw r1 r2) => if admitted s.params (s.regVal r2) then some (s.regVal r2, s.regVal r1) else none
  | _, _ => none

/-- The value of the most recent store to address `a` among the first `n` steps of the run, if any (R33). -/
def latestStore (l : Launch) (a : Nat) : Nat → Option Nat
  | 0 => none
  | n + 1 =>
    match (runFinal l n).storeOf with
    | some (b, v) => if b = a then some v else latestStore l a n
    | none => latestStore l a n

/-- U1: the ALU opcode, bits 1:0 = `01`, bits 3:2 not `00` (conflict C1). -/
abbrev bandU1 (o : Opcodes) (w : InstrWord) : Prop :=
  opcodeField w = o.alu ∧ w.extractLsb' 0 2 = 1#2 ∧ w.extractLsb' 2 2 ≠ 0#2

/-- U2: the advanced pc has a bit among 12:9 that the immediate lacks (conflict C2, R111). -/
abbrev bandU2 {n : Nat} (p : BitVec n) (jimm : BitVec 13) : Prop :=
  p.extractLsb' 9 4 &&& ~~~ jimm.extractLsb' 9 4 ≠ 0#4

/-- U3: an LW or SW word whose bits 3:0 are not zero (decision D5). -/
abbrev bandU3 (o : Opcodes) (w : InstrWord) : Prop :=
  (opcodeField w = o.lw ∨ opcodeField w = o.sw) ∧ w.extractLsb' 0 4 ≠ 0#4

/-- U4: a data address that is not a multiple of `WORD_BYTES` (conflict C5). -/
abbrev bandU4 (p : Params) (addr : Nat) : Prop := addr % p.wordBytes ≠ 0

/-- U7: a data address below `2 * length(PROGRAM)` (decision D7, R45). -/
abbrev bandU7 (l : Launch) (addr : Nat) : Prop := addr < 2 * l.program.length

end Sys2Proof.Machine
end

