-- ==== Sys2Proof/Certificates/Slice0/Obligations.lean ====
section
/-! DEFINITION. The statements for the provers. Each docstring names the rule of the spec it formalises.
A statement that speaks of `Launch.WellFormed` or a part of it assumes only the constraints R6 puts on the
parameters; `Memory.wf` is the invariant of `StepKeepsTheInvariant`. -/

open Sys2Proof Sys2Proof.Machine

/-- R22. The reset values, at the spec's defaults and for every launch; DMEM and IMEM are the launch's. -/
def Obligations.ResetLeavesTheResetValues : Prop :=
  (∀ r, State.reset.regVal r = 0) ∧ State.reset.pcVal = 0 ∧ State.reset.status = .running ∧
  ∀ l : Launch, l.params.unifiedMem = false →
    (∀ r : RegIndex, (State.resetWith l).regVal r = l.resetReg[r.val].toNat) ∧
    (State.resetWith l).pcVal = l.resetPc.toNat ∧ (State.resetWith l).status = .running ∧
    (State.resetWith l).dmem = l.dmemInit ∧ (State.resetWith l).launch.program = l.program

/-- R140. Reset in any state, a faulted one too, puts every piece of state at its reset value; the first step
fetches `PROGRAM[0]` when `RESET_PC` is 0. -/
def Obligations.ResetEventWorksInEveryState : Prop :=
  ∀ s : State, s.launch.WellFormed →
    s.resetEvent.status = .running ∧ s.resetEvent.launch = s.launch ∧
    (∀ r : RegIndex, s.resetEvent.regVal r = s.launch.resetReg[r.val].toNat) ∧
    s.resetEvent.pcVal = s.launch.resetPc.toNat ∧
    (s.params.unifiedMem = false → s.resetEvent.dmem = s.launch.dmemInit) ∧
    (s.launch.resetPc.toNat = 0 → ∀ w ws, s.launch.program = w :: ws → s.resetEvent.fetch = .ok w)

/-- The invariant holds after reset, at the spec's defaults and under every accepted launch. -/
def Obligations.ResetMeetsTheInvariant : Prop :=
  State.reset.Inv ∧ ∀ l : Launch, l.WellFormed → (State.resetWith l).Inv

/-- Every step keeps the invariant: the launch accepted, the pc even, data memory canonical and in bounds. -/
def Obligations.StepKeepsTheInvariant : Prop :=
  ∀ s t : State, s.Inv → step s = .next t → t.Inv

/-- The spec's own derivation (10_state.md section 2, "The pc is always even"). A launch with an odd `RESET_PC` is refused, and in every state that any run of any accepted launch
reaches, bit 0 of the pc is 0. -/
def Obligations.EveryReachablePcIsEven : Prop :=
  (∀ l : Launch, l.resetPc.toNat % 2 = 1 → load l = none) ∧
  ∀ (l : Launch) (s : State) (n : Nat), load l = some s → (s.grants n).pcVal % 2 = 0

/-- A running core in a state that meets the invariant always has a step: nothing is refused. -/
def Obligations.RunningCoreAlwaysSteps : Prop :=
  ∀ s : State, s.Inv → s.status = .running → ∃ t, step s = .next t

/-- R90. AND completes in every state: its word, its result bit by bit, the pc, and its frame. -/
def Obligations.AndResult : Prop :=
  ∀ (r1 r2 : RegIndex) (s : State),
    (encode s.params (.and r1 r2)).toNat = s.params.opcodes.alu.toNat * 0x1000 + r1.val * 0x100 + r2.val * 0x10 + 1 ∧
    ∃ t, exec (.and r1 r2) s = .next t ∧
      (∀ i, (t.regVal r1).testBit i = ((s.regVal r1).testBit i && (s.regVal r2).testBit i)) ∧
      PcAdvances s t ∧ OnlyRegisterChanges s t r1

/-- R91. ADDI completes in every state: its word, its result modulo `2^XLEN`, the pc, and its frame. -/
def Obligations.AddiResult : Prop :=
  ∀ (r1 : RegIndex) (imm : BitVec 8) (s : State), 8 ≤ s.params.xlen →
    (encode s.params (.addi r1 imm)).toNat = s.params.opcodes.addi.toNat * 0x1000 + r1.val * 0x100 + imm.toNat ∧
    ∃ t, exec (.addi r1 imm) s = .next t ∧
      t.regVal r1 = (s.regVal r1 + imm.toNat) % 2 ^ s.params.xlen ∧
      PcAdvances s t ∧ OnlyRegisterChanges s t r1

/-- R92. ORI completes in every state: its word, its result bit by bit (bits 8 and above pass through), the pc,
and its frame. -/
def Obligations.OriResult : Prop :=
  ∀ (r1 : RegIndex) (imm : BitVec 8) (s : State), 8 ≤ s.params.xlen →
    (encode s.params (.ori r1 imm)).toNat = s.params.opcodes.ori.toNat * 0x1000 + r1.val * 0x100 + imm.toNat ∧
    ∃ t, exec (.ori r1 imm) s = .next t ∧
      (∀ i, (t.regVal r1).testBit i = ((s.regVal r1).testBit i || imm.toNat.testBit i)) ∧
      PcAdvances s t ∧ OnlyRegisterChanges s t r1

/-- R100. LW at an admitted address completes: the whole register takes the word at `x[r2]`, the address being
read before the register is written; its word, the pc and its frame. At any other address it raises
`MemFault(addr, read)` and nothing but the status changes. -/
def Obligations.LwResult : Prop :=
  ∀ (r1 r2 : RegIndex) (s : State),
    (encode s.params (.lw r1 r2)).toNat = s.params.opcodes.lw.toNat * 0x1000 + r1.val * 0x100 + r2.val * 0x10 ∧
    (admitted s.params (s.regVal r2) →
      ∃ t, exec (.lw r1 r2) s = .next t ∧ t.regVal r1 = s.wordVal (s.regVal r2) ∧
        PcAdvances s t ∧ OnlyRegisterChanges s t r1) ∧
    (¬ admitted s.params (s.regVal r2) →
      exec (.lw r1 r2) s = .next { s with status := .faulted (.memFault (s.regVal r2) .read) })

/-- R101. SW at an admitted address completes: the word at `x[r2]` becomes `x[r1]`, every byte outside that word
and every register is unchanged; its word and the pc. At any other address it raises
`MemFault(addr, write)` and nothing but the status changes. -/
def Obligations.SwResult : Prop :=
  ∀ (r1 r2 : RegIndex) (s : State), s.params.xlen % 8 = 0 → Memory.wf s.dmem →
    (encode s.params (.sw r1 r2)).toNat = s.params.opcodes.sw.toNat * 0x1000 + r1.val * 0x100 + r2.val * 0x10 ∧
    (admitted s.params (s.regVal r2) →
      ∃ t, exec (.sw r1 r2) s = .next t ∧ t.wordVal (s.effectiveAddress r2).toNat = s.regVal r1 ∧
        (∀ a, (a < (s.effectiveAddress r2).toNat ∨ (s.effectiveAddress r2).toNat + s.params.wordBytes ≤ a) →
          Memory.readByte t.dmem a = Memory.readByte s.dmem a) ∧
        PcAdvances s t ∧ (∀ q, t.regVal q = s.regVal q) ∧ t.status = s.status ∧ t.launch = s.launch) ∧
    (¬ admitted s.params (s.regVal r2) →
      exec (.sw r1 r2) s = .next { s with status := .faulted (.memFault (s.regVal r2) .write) })

/-- R110. J completes in every state: its word, the new pc bit by bit (the pc first advances by 2, then its low
`J_REPLACE_BITS` bits are cleared and the immediate is OR-ed in), and its frame. -/
def Obligations.JResult : Prop :=
  ∀ (imm : BitVec 13) (s : State), 13 ≤ s.params.pclen →
    (encode s.params (.j imm)).toNat = s.params.opcodes.j.toNat * 0x1000 + imm.toNat / 2 ∧
    ∃ t, exec (.j imm) s = .next t ∧
      (∀ i, t.pcVal.testBit i =
        ((decide (s.params.jReplaceBits ≤ i) && ((s.pcVal + 2) % 2 ^ s.params.pclen).testBit i) || imm.toNat.testBit i)) ∧
      (∀ q, t.regVal q = s.regVal q) ∧ (∀ a, Memory.readByte t.dmem a = Memory.readByte s.dmem a) ∧
      t.status = s.status ∧ t.launch = s.launch

/-- R111. The jump at 9 replaced bits, bit by bit; it agrees with the jump at 13 exactly outside band U2, and so
for every J below `0x01FE`. -/
def Obligations.JumpReadingsAgreeOutsideBandU2 : Prop :=
  ∀ n, 13 ≤ n → ∀ (p : BitVec n) (jimm : BitVec 13),
    (∀ i, i < n → (jumpTarget 9 p jimm).getLsbD i =
      if i < 9 then jimm.getLsbD i else if i < 13 then p.getLsbD i || jimm.getLsbD i else p.getLsbD i) ∧
    (jumpTarget 9 p jimm = jumpTarget 13 p jimm ↔ ¬ bandU2 p jimm) ∧
    (∀ pc : BitVec n, pc.toNat < 0x1FE → ¬ bandU2 (pc + 2#n) jimm)

/-- The spec's own derivation (42_jump.md, "A J whose target is its own address is an endless loop"). At 9 replaced bits a self-jump leaves the whole state as it is exactly when its address is not the
last slot of a 512-byte region; at `0x01FE` the new pc is `0x03FE`, where at 13 it would loop; and no
other step leaves the state as it is. (At `PCLEN = 13`, where `0x1FFE + 2` wraps to 0, the last slot of the
address space loops too; the first clause is for wider pcs, the default among them.) -/
def Obligations.SelfJumpIsTheOnlyIdling : Prop :=
  (∀ (k : BitVec 12) (s : State), 14 ≤ s.params.pclen → s.params.jReplaceBits = 9 → s.pcVal = 2 * k.toNat →
    (exec (.j (jimmOf k)) s = .next s ↔ 2 * k.toNat % 0x200 ≠ 0x1FE)) ∧
  (∀ s : State, 13 ≤ s.params.pclen → s.pcVal = 0x1FE →
    (s.params.jReplaceBits = 9 → ∃ t, exec (.j 0x1FE#13) s = .next t ∧ t.pcVal = 0x3FE) ∧
    (s.params.jReplaceBits = 13 → exec (.j 0x1FE#13) s = .next s)) ∧
  (∀ s : State, 13 ≤ s.params.pclen → step s = .next s → ∃ imm, s.fetchDecode = .ok (.j imm))

/-- R12. The outcome of an instruction depends on no register it does not name as read, it changes none it does
not name as written, and the registers never depend on the pc. -/
def Obligations.OnlyNamedRegistersMatter : Prop :=
  (∀ (i : Instr) (s : State) (x : Vector s.Word 16), s.status = .running →
    (∀ r ∈ readsOf i, x[r.val] = s.x[r.val]) →
    ∃ t u, exec i s = .next t ∧ exec i { s with x := x } = .next u ∧
      u.pcVal = t.pcVal ∧ u.dmem = t.dmem ∧ u.status = t.status ∧
      (∀ r ∈ writesOf i, t.status = .running → u.regVal r = t.regVal r) ∧
      (∀ r, r ∉ writesOf i → t.regVal r = s.regVal r)) ∧
  (∀ (i : Instr) (s : State) (q : s.PcWord),
    ∃ t u, exec i s = .next t ∧ exec i { s with pc := q } = .next u ∧ ∀ r, u.regVal r = t.regVal r)

/-- R34. A word written at an admitted address is read back, every other admitted word is as it was, and
a write elsewhere raises. -/
def Obligations.StoredWordIsReadBack : Prop :=
  ∀ (s : State) (addr v : s.Word), s.params.xlen % 8 = 0 → Memory.wf s.dmem →
    (admitted s.params addr.toNat →
      ∃ m, s.memWrite addr v = .ok m ∧ State.memRead { s with dmem := m } addr = .ok v ∧
        ∀ b : s.Word, admitted s.params b.toNat → b ≠ addr →
          State.memRead { s with dmem := m } b = s.memRead b) ∧
    (¬ admitted s.params addr.toNat → s.memWrite addr v = .error (.memFault addr.toNat .write))

/-- R33. After any number of steps of any accepted launch, a read of an admitted address returns the
value of the latest earlier store to it, or `DMEM_INIT` if there was none; a read elsewhere raises. -/
def Obligations.EveryReadReturnsTheLatestStore : Prop :=
  ∀ (l : Launch) (n : Nat) (addr : (runFinal l n).Word), l.WellFormed → l.params.unifiedMem = false →
    (admitted l.params addr.toNat → ∃ v, (runFinal l n).memRead addr = .ok v ∧
      v.toNat = (latestStore l addr.toNat n).getD (Memory.readWord l.byteOrder l.dmemInit l.params.xlen addr.toNat).toNat) ∧
    (¬ admitted l.params addr.toNat → (runFinal l n).memRead addr = .error (.memFault addr.toNat .read))

/-- The spec's own derivation (41_load_store.md, "the only way a program touches data memory"). A step changes no byte of data memory, unless it is a SW at an admitted address, and then only the
bytes of the word at that address. -/
def Obligations.OnlyStoresChangeMemory : Prop :=
  ∀ s t : State, step s = .next t →
    (∀ a, Memory.readByte t.dmem a = Memory.readByte s.dmem a) ∨
    ∃ r1 r2, s.fetchDecode = .ok (.sw r1 r2) ∧ admitted s.params (s.regVal r2) ∧
      ∀ a, (a < s.regVal r2 ∨ s.regVal r2 + s.params.wordBytes ≤ a) →
        Memory.readByte t.dmem a = Memory.readByte s.dmem a

/-- R36. The data interface fails exactly off the admitted addresses, which at the defaults are exactly the even
16-bit values. -/
def Obligations.AdmittedAddresses : Prop :=
  (∀ (s : State) (addr v : s.Word),
    ((∃ w, s.memRead addr = .ok w) ↔
      (addr.toNat % s.params.wordBytes = 0 ∧ addr.toNat + s.params.wordBytes ≤ s.params.dmemBytes)) ∧
    ((∃ m, s.memWrite addr v = .ok m) ↔
      (addr.toNat % s.params.wordBytes = 0 ∧ addr.toNat + s.params.wordBytes ≤ s.params.dmemBytes))) ∧
  ∀ a : BitVec 16, admitted Params.specDefault a.toNat ↔ a.toNat % 2 = 0

/-- R124. A step that raises has the status as its whole effect, so registers, pc and data memory are those
before the step; a `FetchFault` carries that pc. -/
def Obligations.RaisingChangesTheStatusAlone : Prop :=
  ∀ s t : State, step s = .next t → t.status ≠ .running →
    ∃ f, t = { s with status := .faulted f } ∧ ∀ a, f = .fetchFault a → a = s.pcVal

/-- R125. A faulted core has no step, no number of grants changes it, and reset makes it run again. -/
def Obligations.FaultedCoreStaysUntilReset : Prop :=
  ∀ (s : State) (f : Fault), s.status = .faulted f →
    step s = .fault f ∧ (∀ n, s.grants n = s) ∧ s.resetEvent.status = .running

/-- R23, R32 and R127 for a running core at an even pc: a pc beyond the program raises `FetchFault`, a word that does not decode
raises its fault, and a word that decodes to an instruction runs exactly that instruction's meaning.
Under `UNIFIED_MEM = true` the word is the one data memory holds there (the model's choice, log entry 9). -/
def Obligations.StepRunsTheDecodedInstruction : Prop :=
  ∀ s : State, s.status = .running → s.pcVal % 2 = 0 →
    (s.launch.program.length ≤ s.pcVal / 2 →
      step s = .next { s with status := .faulted (.fetchFault s.pcVal) }) ∧
    ∀ v w, s.launch.program[s.pcVal / 2]? = some v →
      w = (if s.params.unifiedMem then Memory.readWord s.order s.dmem 16 (2 * (s.pcVal / 2)) else v) →
      (decode s.params w = .error (.illegalOpcode w) →
        step s = .next { s with status := .faulted (.illegalOpcode w) }) ∧
      (decode s.params w = .error (.illegalFunction w) →
        step s = .next { s with status := .faulted (.illegalFunction w) }) ∧
      (∀ i, decode s.params w = .ok i → step s = exec i s)

/-- Log entry 10, the model's own: a well-formed instruction's word, placed where the next step fetches, is what
the next step runs. -/
def Obligations.PlacedWordRunsNext : Prop :=
  ∀ (s : State) (i : Instr), s.params.WellFormed → Memory.wf s.dmem → i.wellFormed = true →
    step (s.withFetchWord 16 (encode s.params i).toNat) =
      exec i (s.withFetchWord 16 (encode s.params i).toNat)

/-- R62. A word is illegal in exactly two cases, told apart by the opcode, and at the defaults these are the
ranges the rule lists. -/
def Obligations.IllegalWords : Prop :=
  (∀ (p : Params) (w : InstrWord), p.WellFormed →
    (decode p w = .error (.illegalOpcode w) ↔
      opcodeField w ∉ [p.opcodes.alu, p.opcodes.addi, p.opcodes.ori, p.opcodes.lw, p.opcodes.sw, p.opcodes.j]) ∧
    (decode p w = .error (.illegalFunction w) ↔ opcodeField w = p.opcodes.alu ∧ funcCode p w ≠ 1) ∧
    (∀ e, decode p w = .error e → e = .illegalOpcode w ∨ e = .illegalFunction w)) ∧
  ∀ w : InstrWord, (∃ e, decode Params.specDefault w = .error e) ↔
    (w.toNat < 0x1000 ∨ 0x7000 ≤ w.toNat ∨ (0x1000 ≤ w.toNat ∧ w.toNat < 0x2000 ∧ w.toNat % 16 ≠ 1))

/-- R67. Decoding the encoding of any well-formed instruction gives it back, at every admissible opcode map and
either function-field width. -/
def Obligations.DecodeOfEncode : Prop :=
  ∀ (p : Params) (i : Instr), p.WellFormed → i.wellFormed = true → decode p (encode p i) = .ok i

/-- The spec's own derivation (30_encoding.md section 4, "The converse holds only on canonical words"). Encoding a decoded word gives the word back, but for the bits 3:0 of an LW or SW word. -/
def Obligations.EncodeOfDecode : Prop :=
  ∀ (p : Params) (w : InstrWord) (i : Instr), p.WellFormed → p.aluFuncBits = 4 → decode p w = .ok i →
    (opcodeField w ≠ p.opcodes.lw → opcodeField w ≠ p.opcodes.sw → encode p i = w) ∧
    (opcodeField w = p.opcodes.lw ∨ opcodeField w = p.opcodes.sw →
      encode p i = w &&& 0xFFF0#16 ∧ (encode p i = w ↔ w.extractLsb' 0 4 = 0#4))

/-- R65. The encoder as the rule writes it, with shifts and ORs. -/
def Obligations.EncoderIsTheRule : Prop :=
  ∀ p : Params,
    (∀ r1 r2 : RegIndex, encode p (.and r1 r2) =
      p.opcodes.alu.setWidth 16 <<< 12 ||| (regBits r1).setWidth 16 <<< 8 ||| (regBits r2).setWidth 16 <<< 4 ||| 1#16) ∧
    (∀ (r1 : RegIndex) (imm : BitVec 8), encode p (.addi r1 imm) =
      p.opcodes.addi.setWidth 16 <<< 12 ||| (regBits r1).setWidth 16 <<< 8 ||| imm.setWidth 16) ∧
    (∀ (r1 : RegIndex) (imm : BitVec 8), encode p (.ori r1 imm) =
      p.opcodes.ori.setWidth 16 <<< 12 ||| (regBits r1).setWidth 16 <<< 8 ||| imm.setWidth 16) ∧
    (∀ r1 r2 : RegIndex, encode p (.lw r1 r2) =
      p.opcodes.lw.setWidth 16 <<< 12 ||| (regBits r1).setWidth 16 <<< 8 ||| (regBits r2).setWidth 16 <<< 4) ∧
    (∀ r1 r2 : RegIndex, encode p (.sw r1 r2) =
      p.opcodes.sw.setWidth 16 <<< 12 ||| (regBits r1).setWidth 16 <<< 8 ||| (regBits r2).setWidth 16 <<< 4) ∧
    (∀ imm : BitVec 13, encode p (.j imm) = p.opcodes.j.setWidth 16 <<< 12 ||| (imm >>> 1).setWidth 16)

/-- R63. The words the encoder never produces: (a) bits 3:0 of an LW or SW word are not read; (b) the words of
band U1 are illegal at 4 function bits and AND at 2; (c) every ADDI, ORI or J word is some instruction's. -/
def Obligations.NonCanonicalWords : Prop :=
  ∀ (p : Params) (w : InstrWord), p.WellFormed →
    (∀ v : InstrWord, (opcodeField w = p.opcodes.lw ∨ opcodeField w = p.opcodes.sw) →
      v &&& 0xFFF0#16 = w &&& 0xFFF0#16 → decode p v = decode p w) ∧
    (bandU1 p.opcodes w →
      (p.aluFuncBits = 4 → decode p w = .error (.illegalFunction w)) ∧
      (p.aluFuncBits = 2 → decode p w = .ok (.and (r1Field w) (r2Field w)))) ∧
    (opcodeField w = p.opcodes.addi ∨ opcodeField w = p.opcodes.ori ∨ opcodeField w = p.opcodes.j →
      ∃ i : Instr, i.wellFormed = true ∧ encode p i = w)

/-- Conflict C1. The two widths of the function field give the same answer exactly outside band U1. -/
def Obligations.FunctionWidthsAgreeOutsideBandU1 : Prop :=
  ∀ (p : Params) (w : InstrWord), p.WellFormed →
    (decode { p with aluFuncBits := 4 } w = decode { p with aluFuncBits := 2 } w ↔ ¬ bandU1 p.opcodes w)

/-- R51 and R57. Whatever the decoder answers is a well-formed instruction. -/
def Obligations.DecodedInstructionsAreWellFormed : Prop :=
  ∀ (p : Params) (w : InstrWord) (i : Instr), decode p w = .ok i → i.wellFormed = true

/-- 95_test_vectors.md section 2.1, one word of each instruction and one of each illegal kind. -/
def Obligations.VectorWordsDecode : Prop :=
  decodeTableWord 16 0x1121 = some (.and 1 2) ∧ decodeTableWord 16 0x2FFF = some (.addi 15 255) ∧
  decodeTableWord 16 0x3664 = some (.ori 6 0x64) ∧ decodeTableWord 16 0x456F = some (.lw 5 6) ∧
  decodeTableWord 16 0x5560 = some (.sw 5 6) ∧ decodeTableWord 16 0x6003 = some (.j 6) ∧
  decode Params.specDefault 0x1125 = .error (.illegalFunction 0x1125) ∧
  decode Params.specDefault 0x7000 = .error (.illegalOpcode 0x7000)

/-- The spec's own restatement (30_encoding.md section 5, "Seen as hardware"). The datapath driven by the decoder's control outputs does what the instruction's meaning does. -/
def Obligations.ControlOutputsDriveTheInstruction : Prop :=
  ∀ (i : Instr) (s : State), (controlOf i).run s = exec i s

/-- The spec's own derivation (42_jump.md, "Control flow is therefore independent of data"). Control flow is independent of data: two runs of the same parameters, program and `RESET_PC`, with any
register reset values and any data memory, are at the same pc for as long as both are running. -/
def Obligations.ControlFlowIgnoresData : Prop :=
  ∀ (l : Launch) (x : Vector l.params.Word 16) (d : List Host.Cell) (n : Nat), l.params.unifiedMem = false →
    (runFinal l n).status = .running →
    (runFinal { l with resetReg := x, dmemInit := d } n).status = .running →
    (runFinal { l with resetReg := x, dmemInit := d } n).pcVal = (runFinal l n).pcVal

/-- R45. Under the spec's separate memories: no data memory changes what is fetched, no program changes what is
loaded, and no step changes the program. -/
def Obligations.StoresAreNeverSeenByFetch : Prop :=
  ∀ s : State, s.params.unifiedMem = false →
    (∀ d : List Host.Cell, State.fetch { s with dmem := d } = s.fetch) ∧
    (∀ (ws : List InstrWord) (addr : s.Word),
      State.memRead { s with launch := { s.launch with program := ws } } addr = s.memRead addr) ∧
    (∀ t, step s = .next t → t.launch.program = s.launch.program)

/-- R21. The launch is constant in a run: no step changes it. -/
def Obligations.StepKeepsTheLaunch : Prop :=
  ∀ s t : State, step s = .next t → t.launch = s.launch

/-- R38. Byte order is not observable. Beside any state, take the same state over a backing store of either byte
order that holds the same word at every admitted address, each store in its own order. Their steps have the
same outcome: the next states again differ in the store alone and hold the same words (so their registers,
pc, status and launch but for the order agree), and a fault or a refusal is the same one. -/
def Obligations.ByteOrderIsNotObservable : Prop :=
  ∀ (s : State) (o : ByteOrder) (d : Memory), s.params.unifiedMem = false → s.params.xlen % 8 = 0 →
    Memory.wf s.dmem → Memory.wf d → s.SameWords o d →
    (∀ t, step s = .next t →
      ∃ d', step (s.withStore o d) = .next (t.withStore o d') ∧ Memory.wf d' ∧ t.SameWords o d') ∧
    (∀ f, step s = .fault f → step (s.withStore o d) = .fault f) ∧
    (∀ r, step s = .refused r → step (s.withStore o d) = .refused r)

/-- Log entry 9, the model's own reading of `UNIFIED_MEM = true`: a 16-bit word that SW stores where an
instruction stands is the word fetched there. -/
def Obligations.UnifiedStoreReachesFetch : Prop :=
  ∀ (r1 r2 : RegIndex) (s : State), s.params.unifiedMem = true → s.params.xlen = 16 → Memory.wf s.dmem →
    admitted s.params (s.regVal r2) → s.regVal r2 < 2 * s.launch.program.length →
    ∃ t, exec (.sw r1 r2) s = .next t ∧
      ∀ q : t.PcWord, q.toNat = s.regVal r2 → State.fetch { t with pc := q } = .ok (BitVec.ofNat 16 (s.regVal r1))

/-- R24. A software engine gives a directive or an error line the fault `InvalidInstruction` and changes nothing
else; no step of the core ever raises it. -/
def Obligations.InvalidInstructionIsSoftwareOnly : Prop :=
  (∀ (v : Line) (s : State), execSource (.asciiz v) s = .next { s with status := .faulted .invalidInstruction }) ∧
  (∀ (m : Line) (s : State), execSource (.errorLine m) s = .next { s with status := .faulted .invalidInstruction }) ∧
  ∀ s t : State, step s = .next t → t.status ≠ .faulted .invalidInstruction

/-- R51 and R80 to R82. Whatever line parses to a machine instruction parses to a well-formed one. -/
def Obligations.ParsedInstructionsAreWellFormed : Prop :=
  ∀ (line : Line) (i : Instr), parseLine line = .machine i → i.wellFormed = true

/-- R6 and R22 leave `DMEM_INIT` any function from admitted address to word: each one is some accepted listing, in
either byte order. -/
def Obligations.EveryDmemInitIsExpressible : Prop :=
  ∀ (p : Params) (o : ByteOrder) (f : Nat → p.Word), p.WellFormed →
    ∃ d : List Host.Cell, Memory.wf d ∧ Memory.below d p.dmemBytes ∧
      ∀ a, admitted p a → Memory.readWord o d p.xlen a = f a

/-- R151. Once a run is faulted its state is that of every longer run, and so it is once a step leaves the state
as it is. -/
def Obligations.FinalStateHolds : Prop :=
  ∀ (l : Launch) (m n : Nat), m ≤ n →
    ((runFinal l m).status ≠ .running ∨ step (runFinal l m) = .next (runFinal l m)) → runFinal l n = runFinal l m

/-- R38, over runs. After any number of granted steps, the state over the other backing store still differs in
the store alone and holds the same words: what the host observes of a run tells it no byte order. -/
def Obligations.RunsHideTheByteOrder : Prop :=
  ∀ (s : State) (o : ByteOrder) (d : Memory) (n : Nat), s.params.unifiedMem = false → s.params.xlen % 8 = 0 →
    Memory.wf s.dmem → Memory.wf d → s.SameWords o d →
    ∃ d', (s.withStore o d).grants n = (s.grants n).withStore o d' ∧ Memory.wf d' ∧ (s.grants n).SameWords o d' ∧
      ∀ a, (((s.withStore o d).grants n).observeWord a).map BitVec.toNat = ((s.grants n).observeWord a).map BitVec.toNat

/-- R33 and R34, one step. Each admitted word after a step is the value the step stored at that address, if it
stored there, and the word from before the step otherwise. -/
def Obligations.StepWritesTheStoredWordAlone : Prop :=
  ∀ s t : State, s.Inv → step s = .next t → ∀ a, admitted s.params a →
    t.wordVal a =
      match s.storeOf with
      | some (b, v) => if b = a then v else s.wordVal a
      | none => s.wordVal a

/-- The spec's own derivation (42_jump.md, "Control flow is therefore independent of data"), one step. Two states
at the same point of the same program, whatever their registers, data and byte orders, step to the same point,
if both steps leave the core running. -/
def Obligations.StepControlIgnoresData : Prop :=
  ∀ s u t w : State, s.params.unifiedMem = false → SameControl s u → step s = .next t → step u = .next w →
    t.status = .running → w.status = .running → SameControl t w

/-- R84 and R142. Instructions emit their encodings, one each; a directive emits one word per character, the
character's code, and a zero; and the image of a program has one line for each emitted word, the line's
address counting up from 0 and its value the word, both in four hexadecimal digits (lower-case ones: log entry
16, the model's choice). -/
def Obligations.ImageLinesCountUpFromZero : Prop :=
  (∀ (p : Params) (number : Nat) (text : Line) (is : List Instr),
    imageWords p (is.map fun i => ⟨number, text, .machine i⟩) = .ok (is.map (encode p))) ∧
  (∀ (p : Params) (number : Nat) (text value : Line), (∀ c ∈ value, c.toNat < 256) →
    imageWords p [⟨number, text, .asciiz value⟩] = .ok (value.map (fun c => BitVec.ofNat 16 c.toNat) ++ [0#16])) ∧
  ∀ (p : Params) (lines : List SourceLine) (ws : List InstrWord), imageWords p lines = .ok ws → ws.length ≤ 2 ^ 16 →
    ∃ ls, imageText p lines = .ok ls ∧ ls.length = ws.length ∧
      ∀ (k : Nat) (w : InstrWord), ws[k]? = some w → ∃ a v : Line,
        ls[k]? = some (a ++ [' ', ':', ' '] ++ v ++ [';']) ∧ a.length = 4 ∧ digitsValue 16 a = k ∧
        v.length = 4 ∧ digitsValue 16 v = w.toNat ∧ (∀ c ∈ a ++ v, isHex c = true)

/-- R78 step 3, R80 and R135, on AND. A register token is `$r` and a number up to 15, or the line is an `ErrorLine`
whose message names the token, the left one if neither converts (which is named, and the words before the
token, are the model's: log entry 17). -/
def Obligations.BadRegisterTokensAreNamed : Prop :=
  ∀ a b : Line, a ≠ [] → b ≠ [] → (∀ c ∈ a ++ b, isTokenChar c = true ∧ c ≠ '-') →
    (∀ i j : RegIndex, registerNumber a = some i.val → registerNumber b = some j.val →
      parseLine (['A', 'N', 'D', ' '] ++ a ++ [',', ' '] ++ b) = .machine (.and i j)) ∧
    ((∀ i : RegIndex, registerNumber a ≠ some i.val) →
      parseLine (['A', 'N', 'D', ' '] ++ a ++ [',', ' '] ++ b) = .errorLine (ParseError.invalidRegister a).message) ∧
    (∀ i : RegIndex, registerNumber a = some i.val → (∀ j : RegIndex, registerNumber b ≠ some j.val) →
      parseLine (['A', 'N', 'D', ' '] ++ a ++ [',', ' '] ++ b) = .errorLine (ParseError.invalidRegister b).message)
end

