-- ==== Sys2Proof/Laws/Assembler.lean ====
section
/-! SUPPORT. What the shared operations of the assembler's side do: comments, register tokens and their numbers,
and the hexadecimal digits of the image (spec/30_encoding.md R78, R80, R84). -/

namespace Sys2Proof.Machine

/-- A text without a `-` has no comment. -/
theorem splitComment_of_no_dash : ∀ text : Line, '-' ∉ text → splitComment text = (text, false)
  | [], _ => rfl
  | c :: cs, h => by
    have ih := splitComment_of_no_dash cs fun h' => h (List.mem_cons_of_mem _ h')
    unfold splitComment
    split
    · rename_i heq; cases heq; exact absurd List.mem_cons_self h
    · rename_i heq; cases heq; rw [ih]
    · rename_i heq; cases heq

/-- Step 1 of R78 leaves such a text as it is. -/
theorem stripComment_of_no_dash {text : Line} (h : '-' ∉ text) : stripComment text = text := by
  unfold stripComment
  rw [splitComment_of_no_dash text h]
  rfl

/-- A token in front of a text that cannot continue it is what is taken. -/
theorem takeRegister_append {token rest : Line} (hn : token ≠ []) (h : ∀ c ∈ token, isTokenChar c = true)
    (ht : rest.takeWhile isTokenChar = []) (hd : rest.dropWhile isTokenChar = rest) :
    takeRegister (token ++ rest) = some (token, rest) := by
  unfold takeRegister
  rw [List.takeWhile_append_of_pos h, ht, List.append_nil, List.dropWhile_append_of_pos h, hd,
    if_neg (by simpa using hn)]

/-- A token with a register's number converts to that register. -/
theorem registerOf_number {token : Line} {i : RegIndex} (h : registerNumber token = some i.val) :
    registerOf token = .ok i := by
  unfold registerOf
  rw [h]
  exact dif_pos i.isLt

/-- Any other token is the invalid register. -/
theorem registerOf_invalid {token : Line} (h : ∀ i : RegIndex, registerNumber token ≠ some i.val) :
    registerOf token = .error (.invalidRegister token) := by
  unfold registerOf
  cases hk : registerNumber token with
  | none => rfl
  | some k => exact dif_neg fun hlt => h ⟨k, hlt⟩ hk

/-- A hexadecimal digit has the value it was written for. -/
theorem digitValue_digitChar (d : BitVec 4) :
    digitValue (Nat.digitChar d.toNat) = d.toNat ∧ isHex (Nat.digitChar d.toNat) = true := by
  revert d; decide

/-- The four digits of a word read back as the word. -/
theorem digitsValue_hexDigits (w : InstrWord) : digitsValue 16 (hexDigits w) = w.toNat := by
  simp only [hexDigits, List.map, digitsValue, List.foldl, digitValue_digitChar]
  simp only [BitVec.extractLsb'_toNat, Nat.shiftRight_eq_div_pow]
  have := w.isLt
  omega

end Sys2Proof.Machine
end

