-- ==== Sys2Proof/Laws/Decode.lean ====
section
/-! SUPPORT. The fields of a word and the formats of the encoder as arithmetic on the word's value, so that facts
about encodings become facts about quotients and remainders. -/

namespace Sys2Proof

theorem toNat_append_eq {n m : Nat} (a : BitVec n) (b : BitVec m) :
    (a ++ b).toNat = a.toNat * 2 ^ m + b.toNat := by
  rw [BitVec.toNat_append, ← Nat.shiftLeft_add_eq_or_of_lt b.isLt, Nat.shiftLeft_eq]

theorem opcodeField_toNat (w : InstrWord) : (opcodeField w).toNat = w.toNat / 4096 := by
  have := w.isLt
  simp [opcodeField, BitVec.extractLsb'_toNat, Nat.shiftRight_eq_div_pow]
  omega

theorem r1Field_val (w : InstrWord) : (r1Field w).val = w.toNat / 256 % 16 := by
  change (w.extractLsb' 8 4).toNat = _
  simp [BitVec.extractLsb'_toNat, Nat.shiftRight_eq_div_pow]

theorem r2Field_val (w : InstrWord) : (r2Field w).val = w.toNat / 16 % 16 := by
  change (w.extractLsb' 4 4).toNat = _
  simp [BitVec.extractLsb'_toNat, Nat.shiftRight_eq_div_pow]

theorem imm8Field_toNat (w : InstrWord) : (imm8Field w).toNat = w.toNat % 256 := by
  simp [imm8Field, BitVec.extractLsb'_toNat]

theorem jField_toNat (w : InstrWord) : (jField w).toNat = w.toNat % 4096 := by
  simp [jField, BitVec.extractLsb'_toNat]

theorem jimmOf_toNat (j : BitVec 12) : (jimmOf j).toNat = 2 * j.toNat := by
  rw [jimmOf, toNat_append_eq]
  simp [Nat.mul_comm]

theorem regBits_toNat (r : RegIndex) : (regBits r).toNat = r.val := rfl

theorem formatR_toNat (op : BitVec 4) (r1 r2 : RegIndex) :
    (formatR op r1 r2).toNat = op.toNat * 4096 + r1.val * 256 + r2.val * 16 + 1 := by
  simp only [formatR, toNat_append_eq, regBits_toNat, BitVec.toNat_ofNat]
  omega

theorem formatM_toNat (op : BitVec 4) (r1 r2 : RegIndex) :
    (formatM op r1 r2).toNat = op.toNat * 4096 + r1.val * 256 + r2.val * 16 := by
  simp only [formatM, toNat_append_eq, regBits_toNat, BitVec.toNat_ofNat]
  omega

theorem formatI_toNat (op : BitVec 4) (r1 : RegIndex) (imm : BitVec 8) :
    (formatI op r1 imm).toNat = op.toNat * 4096 + r1.val * 256 + imm.toNat := by
  simp only [formatI, toNat_append_eq, regBits_toNat]
  omega

theorem formatJ_toNat (op : BitVec 4) (imm : BitVec 13) :
    (formatJ op imm).toNat = op.toNat * 4096 + imm.toNat / 2 := by
  have := imm.isLt
  rw [formatJ, toNat_append_eq, BitVec.extractLsb'_toNat, Nat.shiftRight_eq_div_pow]
  omega

/-- The opcode field of an encoded word is the opcode of its format. -/
theorem opcodeField_formatR (op : BitVec 4) (r1 r2 : RegIndex) : opcodeField (formatR op r1 r2) = op := by
  apply BitVec.eq_of_toNat_eq
  rw [opcodeField_toNat, formatR_toNat]
  omega

theorem opcodeField_formatM (op : BitVec 4) (r1 r2 : RegIndex) : opcodeField (formatM op r1 r2) = op := by
  apply BitVec.eq_of_toNat_eq
  rw [opcodeField_toNat, formatM_toNat]
  omega

theorem opcodeField_formatI (op : BitVec 4) (r1 : RegIndex) (imm : BitVec 8) :
    opcodeField (formatI op r1 imm) = op := by
  apply BitVec.eq_of_toNat_eq
  have := imm.isLt
  rw [opcodeField_toNat, formatI_toNat]
  omega

theorem opcodeField_formatJ (op : BitVec 4) (imm : BitVec 13) : opcodeField (formatJ op imm) = op := by
  apply BitVec.eq_of_toNat_eq
  have := imm.isLt
  rw [opcodeField_toNat, formatJ_toNat]
  omega

/-- Evenness of a jump immediate as a remainder. -/
theorem wellFormed_j_iff (imm : BitVec 13) : (Instr.j imm).wellFormed = true ↔ imm.toNat % 2 = 0 := by
  rw [Instr.wellFormed, Bool.not_eq_true', BitVec.getLsbD, Nat.testBit_zero]
  simp

end Sys2Proof
end

