-- ==== Sys2Proof/Laws/Memory.lean ====
section
/-! SUPPORT. Data memory: every operation keeps the canonical form and the bound, a write is read back and
leaves every other byte alone, and the same for whole words (spec/20_memory.md R33, R34, R37). -/

namespace Sys2Proof.Machine

@[simp] theorem Memory.readByte_nil (a : Nat) : Memory.readByte [] a = Memory.unlisted := rfl

@[simp] theorem Memory.readByte_cons_cell (c : Host.Cell) (m : Memory) (a : Nat) :
    Memory.readByte (c :: m) a = if c.1 = a then c.2 else Memory.readByte m a := rfl

theorem Memory.mem_cons {a : Nat} {b : Byte} {m : Memory} {c : Host.Cell} (h : c ∈ Memory.cons a b m) :
    c ∈ m ∨ c = (a, b) ∧ b ≠ Memory.unlisted := by
  unfold Memory.cons at h
  split at h
  · exact .inl h
  · rcases List.mem_cons.1 h with h | h
    · exact .inr ⟨h, ‹_›⟩
    · exact .inl h

/-- Every cell of a memory after a byte write is an old cell or the one written. -/
theorem Memory.mem_writeByte {a : Nat} {b : Byte} {c : Host.Cell} :
    ∀ {m : Memory}, c ∈ Memory.writeByte m a b → c ∈ m ∨ c = (a, b) ∧ b ≠ Memory.unlisted
  | [], h => Memory.mem_cons h
  | d :: m, h => by
    simp only [Memory.writeByte] at h
    split at h
    · exact Memory.mem_cons h
    · split at h
      · exact (Memory.mem_cons h).imp_left (List.mem_cons_of_mem _)
      · rcases List.mem_cons.1 h with h | h
        · exact .inl (h ▸ List.mem_cons_self)
        · exact (Memory.mem_writeByte h).imp_left (List.mem_cons_of_mem _)

theorem Memory.readByte_of_lt {a : Nat} : ∀ {m : Memory}, (∀ c ∈ m, a < c.1) →
    Memory.readByte m a = Memory.unlisted
  | [], _ => rfl
  | c :: m, h => by
    have hc := h c List.mem_cons_self
    rw [Memory.readByte_cons_cell, if_neg (by omega)]
    exact Memory.readByte_of_lt fun d hd => h d (List.mem_cons_of_mem _ hd)

theorem Memory.pairwise_cons {a : Nat} {b : Byte} {m : Memory} (hm : m.Pairwise (fun c d => c.1 < d.1))
    (h : ∀ c ∈ m, a < c.1) : (Memory.cons a b m).Pairwise (fun c d => c.1 < d.1) := by
  unfold Memory.cons
  split
  · exact hm
  · exact List.pairwise_cons.2 ⟨h, hm⟩

theorem Memory.pairwise_writeByte (a : Nat) (b : Byte) : ∀ {m : Memory}, m.Pairwise (fun c d => c.1 < d.1) →
    (Memory.writeByte m a b).Pairwise (fun c d => c.1 < d.1)
  | [], _ => Memory.pairwise_cons List.Pairwise.nil (by simp)
  | c :: m, h => by
    obtain ⟨hc, hm⟩ := List.pairwise_cons.1 h
    simp only [Memory.writeByte]
    split
    · refine Memory.pairwise_cons h fun d hd => ?_
      rcases List.mem_cons.1 hd with rfl | hd
      · assumption
      · exact Nat.lt_trans ‹_› (hc d hd)
    · split
      · exact Memory.pairwise_cons hm fun d hd => by have := hc d hd; omega
      · refine List.pairwise_cons.2 ⟨fun d hd => ?_, Memory.pairwise_writeByte a b hm⟩
        rcases Memory.mem_writeByte hd with hd | ⟨rfl, -⟩
        · exact hc d hd
        · dsimp only; omega

/-- A byte write keeps the canonical form. -/
theorem Memory.wf_writeByte {m : Memory} (h : Memory.wf m) (a : Nat) (b : Byte) :
    Memory.wf (Memory.writeByte m a b) := by
  refine ⟨Memory.pairwise_writeByte a b h.1, fun c hc => ?_⟩
  rcases Memory.mem_writeByte hc with hc | ⟨rfl, hb⟩
  · exact h.2 c hc
  · exact hb

/-- A byte write below the bound keeps the bound. -/
theorem Memory.below_writeByte {m : Memory} {n a : Nat} (h : Memory.below m n) (ha : a < n) (b : Byte) :
    Memory.below (Memory.writeByte m a b) n := by
  intro c hc
  rcases Memory.mem_writeByte hc with hc | ⟨rfl, -⟩
  · exact h c hc
  · exact ha

theorem Memory.readByte_cons_self {a : Nat} {b : Byte} {m : Memory} (h : ∀ c ∈ m, a < c.1) :
    Memory.readByte (Memory.cons a b m) a = b := by
  unfold Memory.cons
  split
  · rw [Memory.readByte_of_lt h]; exact (‹b = _›).symm
  · simp

theorem Memory.readByte_cons_ne {a a' : Nat} {b : Byte} {m : Memory} (h : a' ≠ a) :
    Memory.readByte (Memory.cons a b m) a' = Memory.readByte m a' := by
  unfold Memory.cons
  split
  · rfl
  · rw [Memory.readByte_cons_cell, if_neg (Ne.symm h)]

/-- A written byte is read back. -/
theorem Memory.readByte_writeByte_self (a : Nat) (b : Byte) : ∀ {m : Memory},
    m.Pairwise (fun c d => c.1 < d.1) → Memory.readByte (Memory.writeByte m a b) a = b
  | [], _ => Memory.readByte_cons_self (by simp)
  | c :: m, h => by
    obtain ⟨hc, hm⟩ := List.pairwise_cons.1 h
    simp only [Memory.writeByte]
    split
    · refine Memory.readByte_cons_self fun d hd => ?_
      rcases List.mem_cons.1 hd with rfl | hd
      · assumption
      · exact Nat.lt_trans ‹_› (hc d hd)
    · split
      · exact Memory.readByte_cons_self fun d hd => by have := hc d hd; omega
      · rw [Memory.readByte_cons_cell, if_neg (by omega), Memory.readByte_writeByte_self a b hm]

/-- A byte write leaves every other byte alone. -/
theorem Memory.readByte_writeByte_ne {a a' : Nat} (h : a' ≠ a) (b : Byte) : ∀ {m : Memory},
    Memory.readByte (Memory.writeByte m a b) a' = Memory.readByte m a'
  | [] => Memory.readByte_cons_ne h
  | c :: m => by
    simp only [Memory.writeByte]
    split
    · exact Memory.readByte_cons_ne h
    · split
      · rw [Memory.readByte_cons_ne h, Memory.readByte_cons_cell, if_neg (by omega)]
      · rw [Memory.readByte_cons_cell, Memory.readByte_cons_cell, Memory.readByte_writeByte_ne h b]

/-- Writing any number of bytes keeps the canonical form. -/
theorem Memory.wf_writeBytes : ∀ (o : ByteOrder) (n : Nat) {m : Memory} (a v : Nat), Memory.wf m →
    Memory.wf (Memory.writeBytes o m a n v)
  | _, 0, _, _, _, h => h
  | .little, n + 1, _, a, v, h => Memory.wf_writeBytes .little n (a + 1) (v / 256) (Memory.wf_writeByte h a _)
  | .big, n + 1, _, a, v, h => Memory.wf_writeBytes .big n (a + 1) v (Memory.wf_writeByte h a _)

theorem Memory.below_writeBytes {k : Nat} : ∀ (o : ByteOrder) (n : Nat) {m : Memory} (a v : Nat), Memory.below m k →
    a + n ≤ k → Memory.below (Memory.writeBytes o m a n v) k
  | _, 0, _, _, _, h, _ => h
  | .little, n + 1, _, a, v, h, hk =>
    Memory.below_writeBytes .little n (a + 1) (v / 256) (Memory.below_writeByte h (by omega) _) (by omega)
  | .big, n + 1, _, a, v, h, hk =>
    Memory.below_writeBytes .big n (a + 1) v (Memory.below_writeByte h (by omega) _) (by omega)

/-- Writing `n` bytes from `a` leaves every byte outside them alone. -/
theorem Memory.readByte_writeBytes_outside : ∀ (o : ByteOrder) (n : Nat) {m : Memory} (a v a' : Nat),
    (a' < a ∨ a + n ≤ a') → Memory.readByte (Memory.writeBytes o m a n v) a' = Memory.readByte m a'
  | _, 0, _, _, _, _, _ => rfl
  | .little, n + 1, m, a, v, a', h =>
    (Memory.readByte_writeBytes_outside .little n (a + 1) (v / 256) a' (by omega)).trans
      (Memory.readByte_writeByte_ne (by omega) _)
  | .big, n + 1, m, a, v, a', h =>
    (Memory.readByte_writeBytes_outside .big n (a + 1) v a' (by omega)).trans
      (Memory.readByte_writeByte_ne (by omega) _)

/-- The bytes read depend only on the bytes there. -/
theorem Memory.readBytes_congr (o : ByteOrder) {m m' : Memory} : ∀ (n a : Nat),
    (∀ b, a ≤ b → b < a + n → Memory.readByte m b = Memory.readByte m' b) →
    Memory.readBytes o m a n = Memory.readBytes o m' a n
  | 0, _, _ => rfl
  | n + 1, a, h => by
    have hn := Memory.readBytes_congr o n (a + 1) fun b hb hb' => h b (by omega) (by omega)
    cases o <;> rw [Memory.readBytes, Memory.readBytes, h a (by omega) (by omega), hn]

/-- Bytes written are read back in the same order, as the number's low bytes. -/
theorem Memory.readBytes_writeBytes_self : ∀ (o : ByteOrder) (n : Nat) {m : Memory} (a v : Nat), Memory.wf m →
    Memory.readBytes o (Memory.writeBytes o m a n v) a n = v % 256 ^ n
  | _, 0, _, _, _, _ => by simp [Memory.readBytes, Nat.mod_one]
  | .little, n + 1, m, a, v, h => by
    rw [Memory.readBytes, Memory.writeBytes, Memory.readByte_writeBytes_outside .little n (a + 1) _ a (by omega),
      Memory.readByte_writeByte_self a _ h.1,
      Memory.readBytes_writeBytes_self .little n (a + 1) (v / 256) (Memory.wf_writeByte h a _),
      Nat.pow_succ, Nat.mul_comm (256 ^ n) 256, Nat.mod_mul]
    simp [BitVec.toNat_ofNat]
  | .big, n + 1, m, a, v, h => by
    rw [Memory.readBytes, Memory.writeBytes, Memory.readByte_writeBytes_outside .big n (a + 1) _ a (by omega),
      Memory.readByte_writeByte_self a _ h.1,
      Memory.readBytes_writeBytes_self .big n (a + 1) v (Memory.wf_writeByte h a _),
      Nat.pow_succ, Nat.mod_mul]
    simp [BitVec.toNat_ofNat]

theorem two_pow_eq_256_pow {w : Nat} (h : w % 8 = 0) : 256 ^ (w / 8) = 2 ^ w := by
  conv_rhs => rw [← Nat.div_add_mod w 8, h, Nat.add_zero, Nat.pow_mul]

/-- A written word is read back. -/
theorem Memory.readWord_writeWord_self {o : ByteOrder} {w : Nat} (hw : w % 8 = 0) {m : Memory} (h : Memory.wf m) (a : Nat)
    (v : BitVec w) : Memory.readWord o (Memory.writeWord o m a v) w a = v := by
  apply BitVec.eq_of_toNat_eq
  rw [Memory.readWord, Memory.writeWord, Memory.readBytes_writeBytes_self _ _ _ _ h, two_pow_eq_256_pow hw]
  simp

/-- A word is read from its own bytes alone. -/
theorem Memory.readWord_congr {o : ByteOrder} {m m' : Memory} {w a : Nat}
    (h : ∀ b, a ≤ b → b < a + w / 8 → Memory.readByte m b = Memory.readByte m' b) :
    Memory.readWord o m w a = Memory.readWord o m' w a := by
  rw [Memory.readWord, Memory.readWord, Memory.readBytes_congr _ _ _ h]

/-- A word write leaves every byte outside the word alone. -/
theorem Memory.readByte_writeWord_outside {o : ByteOrder} {w : Nat} {m : Memory} {a a' : Nat} (v : BitVec w)
    (h : a' < a ∨ a + w / 8 ≤ a') : Memory.readByte (Memory.writeWord o m a v) a' = Memory.readByte m a' :=
  Memory.readByte_writeBytes_outside _ _ _ _ _ h

/-- A word write leaves every word that does not overlap it alone. -/
theorem Memory.readWord_writeWord_disjoint {o : ByteOrder} {w w' : Nat} {m : Memory} {a b : Nat} (v : BitVec w)
    (h : b + w' / 8 ≤ a ∨ a + w / 8 ≤ b) :
    Memory.readWord o (Memory.writeWord o m a v) w' b = Memory.readWord o m w' b :=
  Memory.readWord_congr fun _ _ _ => Memory.readByte_writeWord_outside v (by omega)

/-- Two different multiples of a word's size are at least a word apart (R37). -/
theorem aligned_disjoint {n a b : Nat} (ha : a % n = 0) (hb : b % n = 0) (h : b ≠ a) : b + n ≤ a ∨ a + n ≤ b := by
  obtain ⟨i, rfl⟩ := Nat.dvd_of_mod_eq_zero ha
  obtain ⟨j, rfl⟩ := Nat.dvd_of_mod_eq_zero hb
  have hij : j ≠ i := fun e => h (by rw [e])
  rcases Nat.lt_or_gt_of_ne hij with hl | hl
  · exact .inl (by rw [← Nat.mul_succ]; exact Nat.mul_le_mul_left n hl)
  · exact .inr (by rw [← Nat.mul_succ]; exact Nat.mul_le_mul_left n hl)

/-- A word write keeps the canonical form. -/
theorem Memory.wf_writeWord {o : ByteOrder} {w : Nat} {m : Memory} (h : Memory.wf m) (a : Nat) (v : BitVec w) :
    Memory.wf (Memory.writeWord o m a v) := Memory.wf_writeBytes _ _ _ _ h

/-- A word write inside the bound keeps the bound. -/
theorem Memory.below_writeWord {o : ByteOrder} {w k : Nat} {m : Memory} (h : Memory.below m k) {a : Nat} (ha : a + w / 8 ≤ k)
    (v : BitVec w) : Memory.below (Memory.writeWord o m a v) k := Memory.below_writeBytes _ _ _ _ h ha

/-- Laying out a program keeps the canonical form. -/
theorem Memory.wf_placeWords {o : ByteOrder} : ∀ (ws : List InstrWord) {m : Memory} (k : Nat), Memory.wf m →
    Memory.wf (Memory.placeWords o m k ws)
  | [], _, _, h => h
  | _ :: ws, _, k, h => Memory.wf_placeWords ws (k + 1) (Memory.wf_writeWord h _ _)

/-- Laying out a program that fits keeps the bound. -/
theorem Memory.below_placeWords {o : ByteOrder} {b : Nat} : ∀ (ws : List InstrWord) {m : Memory} (k : Nat), Memory.below m b →
    2 * (k + ws.length) ≤ b → Memory.below (Memory.placeWords o m k ws) b
  | [], _, _, h, _ => h
  | w :: ws, _, k, h, hb => by
    rw [List.length_cons] at hb
    exact Memory.below_placeWords ws (k + 1) (Memory.below_writeWord h (by omega) w) (by omega)

/-- Laying out words leaves everything below them alone. -/
theorem Memory.readWord_placeWords_low {o : ByteOrder} : ∀ (ws : List InstrWord) {m : Memory} (k i : Nat), i < k →
    Memory.readWord o (Memory.placeWords o m k ws) 16 (2 * i) = Memory.readWord o m 16 (2 * i)
  | [], _, _, _, _ => rfl
  | w :: ws, _, k, i, h => by
    rw [Memory.placeWords, Memory.readWord_placeWords_low ws (k + 1) i (by omega)]
    exact Memory.readWord_writeWord_disjoint w (.inl (by omega))

/-- A program laid out is read back word by word. -/
theorem Memory.readWord_placeWords {o : ByteOrder} : ∀ (ws : List InstrWord) {m : Memory} (k i : Nat), Memory.wf m →
    (h : i < ws.length) → Memory.readWord o (Memory.placeWords o m k ws) 16 (2 * (k + i)) = ws[i]
  | w :: ws, m, k, 0, hm, _ => by
    change Memory.readWord o (Memory.placeWords o (Memory.writeWord o m (2 * k) w) (k + 1) ws) 16 (2 * k) = w
    rw [Memory.readWord_placeWords_low ws (k + 1) k (by omega)]
    exact Memory.readWord_writeWord_self (by rfl) hm _ w
  | w :: ws, m, k, i + 1, hm, h => by
    rw [Memory.placeWords, show k + (i + 1) = k + 1 + i by omega]
    exact Memory.readWord_placeWords ws (k + 1) i (Memory.wf_writeWord hm _ _) (by simpa using h)

end Sys2Proof.Machine
end

