-- ==== Sys2Proof/Laws/State.lean ====
section
/-! SUPPORT. One lemma per field per update of the state, so that no later proof unfolds a record update. -/

namespace Sys2Proof.Machine

variable (s : State)

@[simp] theorem State.commit_launch (x : Vector s.Word 16) (d : Memory) (pc : s.PcWord) :
    (s.commit x d pc).launch = s.launch := rfl
@[simp] theorem State.commit_x (x : Vector s.Word 16) (d : Memory) (pc : s.PcWord) :
    (s.commit x d pc).x = x := rfl
@[simp] theorem State.commit_pc (x : Vector s.Word 16) (d : Memory) (pc : s.PcWord) :
    (s.commit x d pc).pc = pc := rfl
@[simp] theorem State.commit_dmem (x : Vector s.Word 16) (d : Memory) (pc : s.PcWord) :
    (s.commit x d pc).dmem = d := rfl
@[simp] theorem State.commit_status (x : Vector s.Word 16) (d : Memory) (pc : s.PcWord) :
    (s.commit x d pc).status = s.status := rfl

@[simp] theorem State.writeBack_launch (r : RegIndex) (v : s.Word) : (s.writeBack r v).launch = s.launch := rfl
@[simp] theorem State.writeBack_x (r : RegIndex) (v : s.Word) : (s.writeBack r v).x = s.setReg r v := rfl
@[simp] theorem State.writeBack_pc (r : RegIndex) (v : s.Word) : (s.writeBack r v).pc = s.pcPlus2 := rfl
@[simp] theorem State.writeBack_dmem (r : RegIndex) (v : s.Word) : (s.writeBack r v).dmem = s.dmem := rfl
@[simp] theorem State.writeBack_status (r : RegIndex) (v : s.Word) : (s.writeBack r v).status = s.status := rfl

@[simp] theorem State.raise_launch (f : Fault) : (s.raise f).launch = s.launch := rfl
@[simp] theorem State.raise_x (f : Fault) : (s.raise f).x = s.x := rfl
@[simp] theorem State.raise_pc (f : Fault) : (s.raise f).pc = s.pc := rfl
@[simp] theorem State.raise_dmem (f : Fault) : (s.raise f).dmem = s.dmem := rfl
@[simp] theorem State.raise_status (f : Fault) : (s.raise f).status = .faulted f := rfl

@[simp] theorem State.resetWith_launch (l : Launch) : (State.resetWith l).launch = l := rfl
@[simp] theorem State.resetWith_x (l : Launch) : (State.resetWith l).x = l.resetReg := rfl
@[simp] theorem State.resetWith_pc (l : Launch) : (State.resetWith l).pc = l.resetPc := rfl
@[simp] theorem State.resetWith_dmem (l : Launch) : (State.resetWith l).dmem = l.dmemAtReset := rfl
@[simp] theorem State.resetWith_status (l : Launch) : (State.resetWith l).status = .running := rfl

@[simp] theorem State.placeFetchWord_pc (w : InstrWord) : (s.placeFetchWord w).pc = evenPc s.pc := rfl
@[simp] theorem State.placeFetchWord_x (w : InstrWord) : (s.placeFetchWord w).x = s.x := rfl
@[simp] theorem State.placeFetchWord_status (w : InstrWord) : (s.placeFetchWord w).status = .running := rfl
@[simp] theorem State.placeFetchWord_params (w : InstrWord) : (s.placeFetchWord w).params = s.params := rfl

/-- Reading the register file after a register write. -/
theorem State.getElem_setReg (r : RegIndex) (v : s.Word) (q : RegIndex) :
    (s.setReg r v)[q.val] = if q = r then v else s.reg q := by
  simp [State.setReg, State.reg, Vector.getElem_set, Fin.ext_iff, eq_comm]

/-- Reading a register after a write-back: the written one holds the value, every other is as it was. -/
theorem State.writeBack_reg (r : RegIndex) (v : s.Word) (q : RegIndex) :
    (s.writeBack r v).reg q = if q = r then v else s.reg q := s.getElem_setReg r v q

end Sys2Proof.Machine
end

