-- ==== Sys2Proof/Laws/Ops.lean ====
section
/-! SUPPORT. What each shared operation and each meaning can do, said once: the outcomes of a data access, of
the fetch, of `exec` and of `step`. A proof cites these and does not unfold the operation. -/

namespace Sys2Proof.Machine

/-- A data read answers the word, at an admitted address (R33). -/
theorem State.memRead_admitted {s : State} {addr : s.Word} (h : admitted s.params addr.toNat) :
    s.memRead addr = .ok (Memory.readWord s.order s.dmem s.params.xlen addr.toNat) := if_pos h

/-- A data read elsewhere raises (R33). -/
theorem State.memRead_not_admitted {s : State} {addr : s.Word} (h : ¬ admitted s.params addr.toNat) :
    s.memRead addr = .error (.memFault addr.toNat .read) := if_neg h

/-- A data write answers the memory with the word written, at an admitted address (R34). -/
theorem State.memWrite_admitted {s : State} {addr : s.Word} (v : s.Word) (h : admitted s.params addr.toNat) :
    s.memWrite addr v = .ok (Memory.writeWord s.order s.dmem addr.toNat v) := if_pos h

/-- A data write elsewhere raises (R34). -/
theorem State.memWrite_not_admitted {s : State} {addr : s.Word} (v : s.Word) (h : ¬ admitted s.params addr.toNat) :
    s.memWrite addr v = .error (.memFault addr.toNat .write) := if_neg h

/-- Everything LW can answer. -/
theorem execLw_eq (r1 r2 : RegIndex) (s : State) : execLw r1 r2 s =
    if admitted s.params (s.reg r2).toNat
    then .next (s.writeBack r1 (Memory.readWord s.order s.dmem s.params.xlen (s.reg r2).toNat))
    else .next (s.raise (.memFault (s.reg r2).toNat .read)) := by
  unfold execLw State.effectiveAddress
  by_cases h : admitted s.params (s.reg r2).toNat
  · rw [State.memRead_admitted h, if_pos h]
  · rw [State.memRead_not_admitted h, if_neg h]

/-- Everything SW can answer. -/
theorem execSw_eq (r1 r2 : RegIndex) (s : State) : execSw r1 r2 s =
    if admitted s.params (s.reg r2).toNat
    then .next (s.commit s.x (Memory.writeWord s.order s.dmem (s.reg r2).toNat (s.reg r1)) s.pcPlus2)
    else .next (s.raise (.memFault (s.reg r2).toNat .write)) := by
  unfold execSw State.effectiveAddress
  by_cases h : admitted s.params (s.reg r2).toNat
  · rw [State.memWrite_admitted _ h, if_pos h]
  · rw [State.memWrite_not_admitted _ h, if_neg h]

/-- What an instruction can do: complete with a register write, complete with a store, jump, or raise. -/
inductive ExecCase (i : Instr) (s : State) : State → Prop where
  | wrote (r : RegIndex) (v : s.Word) : ExecCase i s (s.writeBack r v)
  | stored (r1 r2 : RegIndex) (hi : i = .sw r1 r2) (h : admitted s.params (s.reg r2).toNat) :
      ExecCase i s (s.commit s.x (Memory.writeWord s.order s.dmem (s.reg r2).toNat (s.reg r1)) s.pcPlus2)
  | jumped (imm : BitVec 13) (hi : i = .j imm) :
      ExecCase i s (s.commit s.x s.dmem (jumpTarget s.params.jReplaceBits s.pcPlus2 imm))
  | raised (r2 : RegIndex) (k : AccessKind) (h : ¬ admitted s.params (s.reg r2).toNat) :
      ExecCase i s (s.raise (.memFault (s.reg r2).toNat k))

/-- `exec` answers a next state, and it is one of the four kinds. -/
theorem exec_cases (i : Instr) (s : State) : ∃ t, exec i s = .next t ∧ ExecCase i s t := by
  cases i with
  | and r1 r2 => exact ⟨_, rfl, .wrote r1 _⟩
  | addi r1 imm => exact ⟨_, rfl, .wrote r1 _⟩
  | ori r1 imm => exact ⟨_, rfl, .wrote r1 _⟩
  | j imm => exact ⟨_, rfl, .jumped imm rfl⟩
  | lw r1 r2 =>
    simp only [exec, execLw_eq]
    split
    · exact ⟨_, rfl, .wrote r1 _⟩
    · exact ⟨_, rfl, .raised r2 .read ‹_›⟩
  | sw r1 r2 =>
    simp only [exec, execSw_eq]
    split
    · exact ⟨_, rfl, .stored r1 r2 rfl ‹_›⟩
    · exact ⟨_, rfl, .raised r2 .write ‹_›⟩

/-- What a step that answers a next state can have done: run the decoded instruction, or raise. -/
theorem step_cases {s t : State} (h : step s = .next t) : s.status = .running ∧ s.pc.toNat % 2 = 0 ∧
    ((∃ f, s.fetchDecode = .error f ∧ t = s.raise f) ∨ (∃ i, s.fetchDecode = .ok i ∧ exec i s = .next t)) := by
  unfold step at h
  split at h
  · cases h
  · split at h
    · cases h
    · refine ⟨‹_›, by omega, ?_⟩
      split at h
      · exact .inl ⟨_, ‹_›, by cases h; rfl⟩
      · exact .inr ⟨_, ‹_›, h⟩

/-- The step of a running core at an even pc. -/
theorem step_running {s : State} (hr : s.status = .running) (hp : s.pc.toNat % 2 = 0) :
    step s = match s.fetchDecode with | .error f => .next (s.raise f) | .ok i => exec i s := by
  unfold step
  rw [hr]
  dsimp only
  exact if_neg (by omega)

/-- A faulted core has no step (R23, R125). -/
theorem step_faulted {s : State} {f : Fault} (h : s.status = .faulted f) : step s = .fault f := by
  unfold step
  rw [h]

end Sys2Proof.Machine
end

