-- ==== Sys2Proof/Laws/PerInstr.lean ====
section
/-! SUPPORT. Statements made per instruction, one lemma per constructor (LAWS.json "per_instruction"). -/

namespace Sys2Proof.Laws.CarriesOpcode

/-- Every machine instruction carries its opcode, and its encoding shows it in bits 15:12 at every opcode map
(spec/30_encoding.md R51, R53). -/
def Statement (i : Instr) : Prop := ∀ p : Params, opcodeField (encode p i) = opcodeOf p.opcodes i

theorem and (r1 r2 : RegIndex) : Statement (.and r1 r2) := fun _ => opcodeField_formatR _ r1 r2

theorem addi (r1 : RegIndex) (imm : BitVec 8) : Statement (.addi r1 imm) := fun _ => opcodeField_formatI _ r1 imm

theorem ori (r1 : RegIndex) (imm : BitVec 8) : Statement (.ori r1 imm) := fun _ => opcodeField_formatI _ r1 imm

theorem lw (r1 r2 : RegIndex) : Statement (.lw r1 r2) := fun _ => opcodeField_formatM _ r1 r2

theorem sw (r1 r2 : RegIndex) : Statement (.sw r1 r2) := fun _ => opcodeField_formatM _ r1 r2

theorem j (imm : BitVec 13) : Statement (.j imm) := fun _ => opcodeField_formatJ _ imm

end Sys2Proof.Laws.CarriesOpcode
end

