-- ==== Sys2Proof/Laws/Run.lean ====
section
/-! SUPPORT. Lemmas about values (registers, pc, immediates, jump targets) as numbers and bits, about placing a
program word, and about granted steps. -/

namespace Sys2Proof.Machine

/-- The advanced pc as a number (R13). -/
theorem State.pcPlus2_toNat (s : State) : s.pcPlus2.toNat = (s.pcVal + 2) % 2 ^ s.params.pclen := by
  rw [State.pcPlus2, BitVec.toNat_add, BitVec.toNat_ofNat, Nat.add_mod_mod]
  rfl

/-- The register written back holds the value. -/
theorem State.regVal_writeBack (s : State) (r : RegIndex) (v : s.Word) : (s.writeBack r v).regVal r = v.toNat := by
  change ((s.writeBack r v).reg r).toNat = _
  rw [State.writeBack_reg, if_pos rfl]
  rfl

/-- A write-back changes no other register, no memory, no status and no launch. -/
theorem State.onlyRegisterChanges_writeBack (s : State) (r : RegIndex) (v : s.Word) :
    OnlyRegisterChanges s (s.writeBack r v) r := by
  refine ⟨fun q hq => ?_, fun _ => rfl, rfl, rfl⟩
  change ((s.writeBack r v).reg q).toNat = (s.reg q).toNat
  rw [State.writeBack_reg, if_neg hq]
  rfl

/-- The zero-extended immediate keeps its value (R58). -/
theorem immOperand_toNat {n : Nat} (h : 8 ≤ n) (imm : BitVec 8) : (immOperand n imm).toNat = imm.toNat := by
  have := imm.isLt
  have : 2 ^ 8 ≤ 2 ^ n := Nat.pow_le_pow_right (by decide) h
  rw [immOperand, BitVec.toNat_setWidth, Nat.mod_eq_of_lt (by omega)]

/-- The jump target bit by bit, at any number of replaced bits (R110). -/
theorem jumpTarget_getLsbD {n : Nat} (k : Nat) (p : BitVec n) (imm : BitVec 13) {i : Nat} (hi : i < n) :
    (jumpTarget k p imm).getLsbD i = ((decide (k ≤ i) && p.getLsbD i) || imm.getLsbD i) := by
  simp only [jumpTarget, jumpMask, BitVec.getLsbD_or, BitVec.getLsbD_and, BitVec.getLsbD_not,
    BitVec.getLsbD_setWidth, hi, BitVec.getLsbD_ofNat, Nat.testBit_two_pow_sub_one, decide_true, Bool.true_and]
  by_cases h : k ≤ i
  · simp [h, show ¬ i < k by omega]
  · simp [h, show i < k by omega]

/-- Evenness as bit 0. -/
theorem even_iff_bit {n : Nat} (b : BitVec n) : b.toNat % 2 = 0 ↔ b.getLsbD 0 = false := by
  rw [BitVec.getLsbD, Nat.testBit_zero]
  simp

/-- A jump from an even pc with an even immediate is even (R113). -/
theorem jumpTarget_even {n : Nat} (k : Nat) {p : BitVec n} {imm : BitVec 13} (hp : p.toNat % 2 = 0)
    (hi : imm.toNat % 2 = 0) : (jumpTarget k p imm).toNat % 2 = 0 := by
  rw [even_iff_bit] at *
  simp only [jumpTarget, BitVec.getLsbD_or, BitVec.getLsbD_and, hp, BitVec.getLsbD_setWidth, hi]
  simp

/-- The placed word is where it was placed. -/
theorem programWith_getElem? : ∀ (k : Nat) (ws : List InstrWord) (w : InstrWord), (programWith ws k w)[k]? = some w
  | 0, [], _ => rfl
  | 0, _ :: _, _ => rfl
  | k + 1, [], w => by simpa [programWith] using programWith_getElem? k [] w
  | k + 1, _ :: ws, w => by simpa [programWith] using programWith_getElem? k ws w

/-- An even pc is its own even pc. -/
theorem evenPc_of_even {n : Nat} {pc : BitVec n} (h : pc.toNat % 2 = 0) : evenPc pc = pc := if_pos h

/-- The fetch under separate memories reads the program alone (R32, R45). -/
theorem State.fetch_separate {s : State} (h : s.params.unifiedMem = false) : s.fetch =
    match s.launch.program[s.pcVal / 2]? with | some w => .ok w | none => .error (.fetchFault s.pcVal) := by
  unfold State.fetch
  change (match s.launch.program[s.pcVal / 2]? with | some w => _ | none => _) = _
  cases s.launch.program[s.pcVal / 2]? with
  | none => rfl
  | some w =>
    change Except.ok (if _ then _ else _) = _
    rw [if_neg (by rw [h]; decide)]

section
variable (s : State) (o : ByteOrder) (d : Memory)
@[simp] theorem State.withStore_params : (s.withStore o d).params = s.params := rfl
@[simp] theorem State.withStore_order : (s.withStore o d).order = o := rfl
@[simp] theorem State.withStore_x : (s.withStore o d).x = s.x := rfl
@[simp] theorem State.withStore_pc : (s.withStore o d).pc = s.pc := rfl
@[simp] theorem State.withStore_dmem : (s.withStore o d).dmem = d := rfl
@[simp] theorem State.withStore_status : (s.withStore o d).status = s.status := rfl
end

/-- Two states at the same point of the same program, under separate memories, decode the same instruction or
meet the same fault (R32, R45). -/
theorem fetchDecode_of_sameControl {s u : State} (h : SameControl s u) (hu : s.params.unifiedMem = false) :
    u.fetchDecode = s.fetchDecode := by
  unfold State.fetchDecode
  rw [State.fetch_separate hu, State.fetch_separate (s := u) (by rw [h.1]; exact hu), h.2.1, h.2.2, h.1]

/-- One more granted step, at the end. -/
theorem State.grants_succ : ∀ (n : Nat) (s : State), s.grants (n + 1) = (s.grants n).grant
  | 0, _ => rfl
  | n + 1, s => by rw [State.grants, State.grants_succ n]; rfl

/-- Granted steps in two parts. -/
theorem State.grants_add (s : State) (m : Nat) : ∀ k, s.grants (m + k) = (s.grants m).grants k
  | 0 => rfl
  | k + 1 => by rw [← Nat.add_assoc, State.grants_succ, State.grants_add s m k, State.grants_succ]

/-- What a granted step does to a running core at an even pc. -/
theorem State.grant_running {s : State} (hr : s.status = .running) (hp : s.pc.toNat % 2 = 0) :
    (∃ f, s.fetchDecode = .error f ∧ s.grant = s.raise f) ∨ (∃ i, s.fetchDecode = .ok i ∧ exec i s = .next s.grant) := by
  have h := step_running hr hp
  cases hd : s.fetchDecode with
  | error f =>
    rw [hd] at h
    refine .inl ⟨f, rfl, ?_⟩
    unfold State.grant
    rw [h]
  | ok i =>
    rw [hd] at h
    obtain ⟨t, ht, -⟩ := exec_cases i s
    have h' : step s = .next t := h.trans ht
    refine .inr ⟨i, rfl, ?_⟩
    unfold State.grant
    rw [h', ht]

end Sys2Proof.Machine
end

