-- ==== Sys2Proof/Tests/Slice0.lean ====
section
/-! SUPPORT. Tests: words written out from the encoding tables, ill-formed terms that the checks refuse, one or
two steps' worth of vectors per instruction from spec/95_test_vectors.md, and a witness for the hypotheses
of every obligation that has some. -/

namespace Sys2Proof.Tests

open Sys2Proof Sys2Proof.Machine

/-- A launch at the spec's default parameters. -/
def launch (program : List InstrWord) (dmemInit : List Host.Cell) : Launch :=
  { Launch.specDefault with program := program, dmemInit := dmemInit }

/-- A running state at the default parameters. -/
def state (program : List InstrWord) (dmem : List Host.Cell) (pc : BitVec 16)
    (regs : List (RegIndex × BitVec 16)) : State where
  launch := launch program []
  x := regs.foldl (fun x r => x.set r.1.val r.2) (Vector.replicate 16 0#16)
  pc := pc
  dmem := dmem
  status := .running

/-- A launch of the source's first two instructions, with one data word initialised. -/
def demo : Launch := launch [0x1501, 0x6000] [(0x64, 2)]

/-- The same at the other reading of every contested parameter. -/
def demoUnified : Launch :=
  { launch [0x5560, 0x6000] [(0x64, 2)] with
    params := { Params.specDefault with aluFuncBits := 2, jReplaceBits := 13, unifiedMem := true } }

/-- The next state of an outcome, if there is one. -/
def nextOf : Host.Outcome State Fault Refusal → Option State
  | .next t => some t
  | .fault _ => none
  | .refused _ => none

/-- One step of the word from `pc = 0x0010`, the setting of sections 2.3 and 2.4 of the vectors. -/
def stepWord (w : Nat) (dmem : List Host.Cell) (regs : List (RegIndex × BitVec 16)) : Option State :=
  nextOf (step ((state [] dmem 0x10 regs).withFetchWord 16 w))

/-! Decoding: each word is written out bit by bit from the field tables of R54 to R57. -/

/-- opcode 1, r1 1, r2 2, func 1 (R54; source example S2). -/
theorem test_decode_and : decodeTableWord 16 0b0001000100100001 = some (.and 1 2) := by decide
/-- opcode 2, r1 5, imm8 0x81 (R56). -/
theorem test_decode_addi : decodeTableWord 16 0b0010010110000001 = some (.addi 5 0x81) := by decide
/-- opcode 3, r1 6, imm8 0x64 (R56). -/
theorem test_decode_ori : decodeTableWord 16 0b0011011001100100 = some (.ori 6 0x64) := by decide
/-- opcode 4, r1 5, r2 6, unused 15 (R55, R63). -/
theorem test_decode_lw : decodeTableWord 16 0b0100010101101111 = some (.lw 5 6) := by decide
/-- opcode 5, r1 5, r2 6, unused 0 (R55). -/
theorem test_decode_sw : decodeTableWord 16 0b0101010101100000 = some (.sw 5 6) := by decide
/-- opcode 6, jfield 0x801, so the byte address is 0x1002 (R57). -/
theorem test_decode_j : decodeTableWord 16 0b0110100000000001 = some (.j 0x1002) := by decide
/-- E8: the ALU opcode with function code 5 is illegal at four function bits (band U1). -/
theorem test_decode_func5 : decode Params.specDefault 0x1125 = .error (.illegalFunction 0x1125) := by decide
/-- E9 and E10: the all-zeros and the all-ones word. -/
theorem test_decode_illegal : decode Params.specDefault 0x0000 = .error (.illegalOpcode 0x0000) ∧
    decode Params.specDefault 0xFFFF = .error (.illegalOpcode 0xFFFF) := by decide
/-- K1, K4, K7 and K9. -/
theorem test_encode : encode Params.specDefault (.and 1 2) = 0x1121 ∧ encode Params.specDefault (.ori 6 0x64) = 0x3664 ∧
    encode Params.specDefault (.lw 5 6) = 0x4560 ∧ encode Params.specDefault (.j 0xC) = 0x6006 := by decide

/-! Ill-formed terms, one for each check. -/

theorem test_ill_jump : Instr.wellFormed (.j 7) = false := by decide
theorem test_ill_alu_opcode : ¬ ({ Opcodes.specDefault with alu := 7 } : Opcodes).WellFormed := by decide
theorem test_ill_opcode_clash : ¬ ({ Opcodes.specDefault with sw := 4 } : Opcodes).WellFormed := by decide
theorem test_ill_opcodes : ¬ ({ Params.specDefault with opcodes := ⟨1, 2, 2, 4, 5, 6⟩ } : Params).WellFormed := by decide
theorem test_ill_xlen : ¬ ({ Params.specDefault with xlen := 17 } : Params).WellFormed := by decide
theorem test_ill_narrow : ¬ ({ Params.specDefault with xlen := 8, dmemBytes := 256 } : Params).WellFormed := by decide
theorem test_ill_pclen : ¬ ({ Params.specDefault with pclen := 12 } : Params).WellFormed := by decide
theorem test_ill_func_bits : ¬ ({ Params.specDefault with aluFuncBits := 3 } : Params).WellFormed := by decide
theorem test_ill_replace_bits : ¬ ({ Params.specDefault with jReplaceBits := 12 } : Params).WellFormed := by decide
theorem test_ill_dmem_bytes : ¬ ({ Params.specDefault with dmemBytes := 2 ^ 16 + 1 } : Params).WellFormed := by decide
/-- A launch with a pc of `n` bits. -/
def narrowPc (n : Nat) (program : List InstrWord) : Launch where
  params := { Params.specDefault with pclen := n }
  byteOrder := .little
  program := program
  dmemInit := []
  resetPc := BitVec.ofNat n 0
  resetReg := Vector.replicate 16 0#16
theorem test_ill_launch_params : load (narrowPc 12 []) = none := by decide
theorem test_ill_program_length : ¬ (narrowPc 13 (List.replicate 4097 0#16)).WellFormed :=
  fun h => absurd (show (List.replicate 4097 0#16).length ≤ 2 ^ 12 from h.2.1) (by rw [List.length_replicate]; decide)
theorem test_ill_dmem_order : load (launch [] [(4, 1), (2, 1)]) = none := by decide
theorem test_ill_dmem_unlisted : load (launch [] [(4, 0)]) = none := by decide
theorem test_ill_dmem_bound : load (launch [] [(65536, 1)]) = none := by decide
theorem test_ill_reset_pc : load { launch [] [] with resetPc := 3#16 } = none := by decide
theorem test_ill_unified_program :
    load { demoUnified with params := { demoUnified.params with dmemBytes := 2 }, dmemInit := [] } = none := by decide
theorem test_load_accepts : (load (launch [0x6000] [(2, 1), (7, 9)])).isSome = true := by decide

/-! Steps. -/

/-- A1. -/
theorem test_and_step : (stepWord 0x1121 [] [(1, 0xF0F0), (2, 0x0FF0)]).map
    (fun t => (t.regVal 1, t.regVal 2, t.pcVal)) = some (0x00F0, 0x0FF0, 0x12) := by decide
/-- A4: register 0 is not hardwired. -/
theorem test_and_register_zero : (stepWord 0x1501 [] [(5, 0x1234), (0, 0x00F0)]).map (fun t => t.regVal 5) =
    some 0x0030 := by decide
/-- A9: the immediate is +255. -/
theorem test_addi_unsigned : (stepWord 0x25FF [] [(5, 0x00FF)]).map (fun t => (t.regVal 5, t.pcVal)) =
    some (0x01FE, 0x12) := by decide
/-- A11: wrap at 16 bits. -/
theorem test_addi_wraps : (stepWord 0x25FF [] [(5, 0xFF80)]).map (fun t => t.regVal 5) = some 0x007F := by decide
/-- A15: bits 15:8 untouched. -/
theorem test_ori_zero_extends : (stepWord 0x36FF [] [(6, 0x1234)]).map (fun t => (t.regVal 6, t.pcVal)) =
    some (0x12FF, 0x12) := by decide
/-- M3: the address is read before the register is written. -/
theorem test_lw_same_register : (stepWord 0x4220 [(0x40, 0x99)] [(2, 0x40)]).map
    (fun t => (t.regVal 2, t.pcVal, t.status)) = some (0x99, 0x12, .running) := by decide
/-- M5: a misaligned address faults, the register and the pc keep their values. -/
theorem test_lw_misaligned : (stepWord 0x4560 [] [(6, 0x65), (5, 0x1111)]).map
    (fun t => (t.regVal 5, t.pcVal, t.status)) = some (0x1111, 0x10, .faulted (.memFault 0x65 .read)) := by decide
/-- M10: adjacent words do not overlap; storing zero over a listed word removes its cell. -/
theorem test_sw_adjacent : (stepWord 0x5780 [(0x100, 1), (0x102, 9)] [(7, 0x200), (8, 0x102)]).map
    (fun t => (t.wordVal 0x100, t.wordVal 0x102, t.pcVal, t.dmem)) =
    some (1, 0x200, 0x12, [(0x100, 1), (0x103, 2)]) := by decide
/-- M6: a misaligned store changes nothing. -/
theorem test_sw_misaligned : (stepWord 0x5560 [(0, 3)] [(6, 1), (5, 0x7777)]).map
    (fun t => (t.dmem, t.pcVal, t.status)) = some ([(0, 3)], 0x10, .faulted (.memFault 1 .write)) := by decide
/-- J1, and J6 where the pc wraps before the mask. -/
theorem test_j_targets : (nextOf (exec (.j 6) (state [] [] 0xC []))).map (fun t => t.pcVal) = some 6 ∧
    (nextOf (exec (.j 6) (state [] [] 0xFFFE []))).map (fun t => t.pcVal) = some 6 := by decide
/-- J9 and J8: inside band U2 the formula is taken literally. -/
theorem test_j_contested : (nextOf (exec (.j 0x10) (state [] [] 0x400 []))).map (fun t => t.pcVal) = some 0x410 ∧
    (nextOf (exec (.j 6) (state [] [] 0x1FE []))).map (fun t => t.pcVal) = some 0x206 := by decide
/-- F1 and F2: decode faults. -/
theorem test_decode_faults : (nextOf (step (state [0x0000] [] 0 []))).map (fun t => (t.status, t.pcVal)) =
      some (.faulted (.illegalOpcode 0x0000), 0) ∧
    (nextOf (step (state [0x1120] [] 0 []))).map (fun t => t.status) = some (.faulted (.illegalFunction 0x1120)) := by decide
/-- F6: the first step after `State.reset`, where no program is loaded. -/
theorem test_fetch_fault : (nextOf (step State.reset)).map (fun t => t.status) = some (.faulted (.fetchFault 0)) := by decide
/-- A granted step does nothing to a faulted core (F3). -/
theorem test_faulted_grant : (State.reset.grant).grant = State.reset.grant := by decide

/-! The assembler's side (2.7 of the vectors). -/

/-- T1, T2, T7, T13. -/
theorem test_parse_accepts :
    parseLine ['A', 'N', 'D', ' ', '$', 'r', '1', ',', ' ', '$', 'r', '2'] = .machine (.and 1 2) ∧
    parseLine ['A', 'N', 'D', ' ', '$', 'r', '5', ',', '$', 'r', '0'] = .machine (.and 5 0) ∧
    parseLine ['O', 'R', 'I', ' ', '$', 'r', '6', ',', ' ', '1', '0', '0'] = .machine (.ori 6 0x64) ∧
    parseLine ['J', ' ', '0', 'x', 'f', 'f', 'f'] = .machine (.j 0x1FFE) := by decide
/-- T4, T8, T12. -/
theorem test_parse_ranges :
    parseLine ['A', 'N', 'D', ' ', '$', 'r', '1', '6', ',', ' ', '$', 'r', '2'] = .errorLine (ParseError.invalidRegister ['$', 'r', '1', '6']).message ∧
    parseLine ['A', 'D', 'D', 'I', ' ', '$', 'r', '5', ',', ' ', '0', 'x', '1', '0', '0'] = .errorLine (ParseError.immediateOutOfRange ['0', 'x', '1', '0', '0']).message ∧
    parseLine ['J', ' ', '0', 'x', '1', '0', '0', '0'] = .errorLine (ParseError.immediateOutOfRange ['0', 'x', '1', '0', '0', '0']).message := by decide
/-- T15 and T16: a trailing space is an error, a trailing comment with its space is not. -/
theorem test_parse_comment :
    parseLine ['J', ' ', '6', ' '] = .errorLine (ParseError.unknownInstruction ['J', ' ', '6', ' ']).message ∧
    parseLine ['J', ' ', '6', ' ', '-', '-', ' ', 'x'] = .machine (.j 0xC) := by decide
/-- T3 (source S4): a token that is no `$r<d>` is the invalid register. -/
theorem test_parse_token :
    parseLine ['A', 'N', 'D', ' ', 'r', '1', ',', ' ', '$', 'r', '2'] =
      .errorLine (ParseError.invalidRegister ['r', '1']).message := by decide
/-- T14: the message of R78 step 5, in the words the vector prints. -/
theorem test_unknown_message :
    parseLine ['a', 'n', 'd', ' ', '$', 'r', '1', ',', ' ', '$', 'r', '2'] =
      .errorLine (['U', 'n', 'k', 'n', 'o', 'w', 'n', ' ', 'i', 'n', 's', 't', 'r', 'u', 'c', 't', 'i', 'o', 'n', ':', ' ']
        ++ ['a', 'n', 'd', ' ', '$', 'r', '1', ',', ' ', '$', 'r', '2']) := by decide
/-- The directive of S7. -/
def hiLine : Line := ['.', 'a', 's', 'c', 'i', 'i', 'z', ' ', quoteChar, 'h', 'i', quoteChar]
/-- S7: `.asciiz "hi"` emits three words at consecutive addresses from 0. -/
theorem test_asciiz_image :
    (imageText Params.specDefault (parseProgram [hiLine])).toOption = some [
      ['0', '0', '0', '0', ' ', ':', ' ', '0', '0', '6', '8', ';'],
      ['0', '0', '0', '1', ' ', ':', ' ', '0', '0', '6', '9', ';'],
      ['0', '0', '0', '2', ' ', ':', ' ', '0', '0', '0', '0', ';']] := by decide
/-- The two characters that R84 echoes by name, and one that it echoes as itself. -/
theorem test_character_echo : characterEcho nullChar = ['<', 'n', 'u', 'l', 'l', '>'] ∧
    characterEcho ' ' = ['<', 's', 'p', 'a', 'c', 'e', '>'] ∧ characterEcho 'h' = ['h'] := by decide
/-- S7: what the comments of the three lines echo. -/
theorem test_asciiz_echo :
    ((emitted Params.specDefault (parseProgram [hiLine])).toOption.map fun es => es.map Emitted.echo) =
      some [['h'], ['i'], ['<', 'n', 'u', 'l', 'l', '>']] := by decide

/-! Witnesses: for every obligation with hypotheses, a concrete instance that meets all of them, at a boundary
where there is one, and one for each clause that has hypotheses of its own. -/

theorem witness_ResetLeavesTheResetValues : demo.params.unifiedMem = false := by decide
theorem witness_ResetEventWorksInEveryState :
    ((State.resetWith demo).raise .invalidInstruction).launch.WellFormed ∧ demo.resetPc.toNat = 0 ∧
      demo.program = 0x1501 :: [0x6000] ∧ demo.params.unifiedMem = false ∧ demoUnified.WellFormed := by decide
theorem witness_ResetMeetsTheInvariant : demo.WellFormed ∧ demoUnified.WellFormed := by decide
theorem witness_StepKeepsTheInvariant :
    (State.resetWith demo).Inv ∧ (nextOf (step (State.resetWith demo))).isSome = true := by decide
theorem witness_EveryReachablePcIsEven : (load demo).isSome = true ∧
    ({ launch [] [] with resetPc := 1#16 } : Launch).resetPc.toNat % 2 = 1 := by decide
theorem witness_RunningCoreAlwaysSteps : (State.resetWith demo).Inv ∧ (State.resetWith demo).status = .running := by decide
theorem witness_AddiResult : 8 ≤ State.reset.params.xlen := by decide
theorem witness_OriResult : 8 ≤ State.reset.params.xlen := by decide
/-- The highest admitted address and the address above it; and with `DMEM_BYTES = 6`, 4 and 6. -/
theorem witness_LwResult : admitted State.reset.params ((state [] [] 0 [(6, 0xFFFE)]).regVal 6) ∧
    ¬ admitted State.reset.params ((state [] [] 0 [(6, 0xFFFF)]).regVal 6) ∧
    admitted { Params.specDefault with dmemBytes := 6 } 4 ∧ ¬ admitted { Params.specDefault with dmemBytes := 6 } 6 := by decide
theorem witness_SwResult : (state [] [(2, 1)] 0 [(6, 0xFFFE)]).params.xlen % 8 = 0 ∧
    Memory.wf (state [] [(2, 1)] 0 [(6, 0xFFFE)]).dmem ∧
    admitted State.reset.params ((state [] [(2, 1)] 0 [(6, 0xFFFE)]).regVal 6) ∧
    ¬ admitted State.reset.params ((state [] [(2, 1)] 0 [(6, 1)]).regVal 6) := by decide
theorem witness_JResult : 13 ≤ State.reset.params.pclen := by decide
/-- The three ranges of bits, both sides of the equivalence, and the last pc below `0x01FE`. -/
theorem witness_JumpReadingsAgreeOutsideBandU2 : 13 ≤ 16 ∧ (8 < 9 ∧ 12 < 13 ∧ 13 < 16) ∧
    bandU2 (0x402#16) 0x10#13 ∧ ¬ bandU2 (0xE#16) 6#13 ∧ (0x1FD#16).toNat < 0x1FE := by decide
theorem witness_SelfJumpIsTheOnlyIdling :
    (14 ≤ State.reset.params.pclen ∧ State.reset.params.jReplaceBits = 9 ∧ (state [] [] 0x10 []).pcVal = 2 * (8#12).toNat) ∧
    ((state [] [] 0x1FE []).pcVal = 0x1FE ∧ 13 ≤ (state [] [] 0x1FE []).params.pclen) ∧ demoUnified.params.jReplaceBits = 13 := by decide
/-- A self-jump at pc 0 leaves the state as it is, so the last clause's hypothesis is met. -/
theorem witness_idle_step : nextOf (step (state [0x6000] [] 0 [])) = some (state [0x6000] [] 0 []) := by decide
theorem witness_OnlyNamedRegistersMatter : State.reset.status = .running ∧
    ∀ r ∈ readsOf (.and 1 2), (Vector.set State.reset.x 3 9#16)[r.val] = State.reset.x[r.val] := by
  refine ⟨by decide, fun r hr => ?_⟩
  rcases List.mem_pair.1 hr with rfl | rfl <;> rfl
theorem witness_StoredWordIsReadBack : State.reset.params.xlen % 8 = 0 ∧ Memory.wf State.reset.dmem ∧
    admitted State.reset.params (0xFFFE#16).toNat ∧ admitted State.reset.params (0#16).toNat ∧ 0#16 ≠ 0xFFFE#16 ∧
    ¬ admitted State.reset.params (0xFFFF#16).toNat := by decide
theorem witness_EveryReadReturnsTheLatestStore : demo.WellFormed ∧ demo.params.unifiedMem = false ∧
    admitted demo.params 0xFFFE ∧ ¬ admitted demo.params 0xFFFF := by decide
theorem witness_OnlyStoresChangeMemory : (nextOf (step (state [0x5560] [] 0 [(5, 1)]))).isSome = true := by decide
theorem witness_RaisingChangesTheStatusAlone :
    (nextOf (step State.reset)).map (fun t => t.status) = some (.faulted (.fetchFault 0)) := by decide
theorem witness_FaultedCoreStaysUntilReset :
    (State.reset.raise (.fetchFault 0)).status = .faulted (.fetchFault 0) := by decide
/-- A program of one word: pc 2 is beyond it, pc 0 fetches it; a word of each illegal kind, and a legal one. -/
theorem witness_StepRunsTheDecodedInstruction :
    ((state [0x6000] [] 2 []).launch.program.length ≤ (state [0x6000] [] 2 []).pcVal / 2 ∧ (state [0x6000] [] 2 []).pcVal % 2 = 0 ∧
      (state [0x6000] [] 2 []).status = .running) ∧
    (state [0x6000] [] 0 []).launch.program[(state [0x6000] [] 0 []).pcVal / 2]? = some 0x6000 ∧
    decode Params.specDefault 0x6000 = .ok (.j 0) ∧ decode Params.specDefault 0x7000 = .error (.illegalOpcode 0x7000) ∧
    decode Params.specDefault 0x1000 = .error (.illegalFunction 0x1000) := by decide
theorem witness_PlacedWordRunsNext : State.reset.params.WellFormed ∧ Memory.wf State.reset.dmem ∧
    (Instr.j 6).wellFormed = true := by decide
/-- The ends of the ranges of illegal words at the defaults. -/
theorem witness_IllegalWords : Params.specDefault.WellFormed ∧
    (decode Params.specDefault 0x0FFF).toOption = none ∧ (decode Params.specDefault 0x1001).toOption = some (.and 0 0) ∧
    (decode Params.specDefault 0x6FFF).toOption = some (.j 0x1FFE) ∧ (decode Params.specDefault 0x7000).toOption = none := by decide
theorem witness_DecodeOfEncode : Params.specDefault.WellFormed ∧ demoUnified.params.WellFormed ∧
    (Instr.j 0x1FFE).wellFormed = true := by decide
theorem witness_EncodeOfDecode : Params.specDefault.WellFormed ∧ Params.specDefault.aluFuncBits = 4 ∧
    decode Params.specDefault 0x456F = .ok (.lw 5 6) ∧ opcodeField 0x456F = Params.specDefault.opcodes.lw ∧
    decode Params.specDefault 0x6FFF = .ok (.j 0x1FFE) ∧ opcodeField 0x6FFF ≠ Params.specDefault.opcodes.lw ∧
    opcodeField 0x6FFF ≠ Params.specDefault.opcodes.sw := by decide
theorem witness_NonCanonicalWords : Params.specDefault.WellFormed ∧ demoUnified.params.WellFormed ∧
    (opcodeField 0x5561 = Params.specDefault.opcodes.sw ∧ 0x556F#16 &&& 0xFFF0#16 = 0x5561#16 &&& 0xFFF0#16) ∧
    bandU1 Params.specDefault.opcodes 0x1125 ∧ demoUnified.params.aluFuncBits = 2 ∧
    opcodeField 0x6FFF = Params.specDefault.opcodes.j := by decide
theorem witness_FunctionWidthsAgreeOutsideBandU1 : Params.specDefault.WellFormed ∧
    bandU1 Params.specDefault.opcodes 0x1125 ∧ ¬ bandU1 Params.specDefault.opcodes 0x1124 := by decide
theorem witness_DecodedInstructionsAreWellFormed : decode Params.specDefault 0x6003 = .ok (.j 6) := by decide
theorem witness_ControlFlowIgnoresData : demo.params.unifiedMem = false ∧ (runFinal demo 1).status = .running ∧
    (runFinal { demo with resetReg := Vector.replicate 16 7#16, dmemInit := [] } 1).status = .running := by decide
theorem witness_StoresAreNeverSeenByFetch : State.reset.params.unifiedMem = false ∧
    (nextOf (step State.reset)).isSome = true := by decide
theorem witness_StepKeepsTheLaunch : (nextOf (step (State.resetWith demo))).isSome = true := by decide
/-- A state with six bytes of data memory. -/
def sixBytes : State :=
  State.resetWith { launch [] [(2, 1)] with params := { Params.specDefault with dmemBytes := 6 } }
/-- The word 1 at address 2, in either byte order. -/
theorem witness_sameWords : sixBytes.order = .little ∧ sixBytes.dmem = [(2, 1)] ∧ sixBytes.SameWords .big [(3, 1)] := by
  refine ⟨rfl, rfl, fun a ha => ?_⟩
  have h : a % 2 = 0 ∧ a + 2 ≤ 6 := ha
  obtain rfl | rfl | rfl : a = 0 ∨ a = 2 ∨ a = 4 := by omega
  all_goals rfl
/-- A step, a fault and a refusal over that store. -/
theorem witness_ByteOrderIsNotObservable : sixBytes.params.unifiedMem = false ∧ sixBytes.params.xlen % 8 = 0 ∧
    Memory.wf sixBytes.dmem ∧ Memory.wf [(3, 1)] ∧ sixBytes.SameWords .big [(3, 1)] ∧
    (nextOf (step sixBytes)).isSome = true ∧ step (sixBytes.raise (.fetchFault 0)) = .fault (.fetchFault 0) ∧
    step { sixBytes with pc := 1#16 } = .refused .oddPc :=
  ⟨by decide, by decide, by decide, by decide, witness_sameWords.2.2, by decide, rfl, rfl⟩
theorem witness_RunsHideTheByteOrder : sixBytes.params.unifiedMem = false ∧ sixBytes.params.xlen % 8 = 0 ∧
    Memory.wf sixBytes.dmem ∧ Memory.wf [(3, 1)] ∧ sixBytes.SameWords .big [(3, 1)] :=
  ⟨by decide, by decide, by decide, by decide, witness_sameWords.2.2⟩
/-- A step that stores to address 0, the word stored there and another word. -/
theorem witness_StepWritesTheStoredWordAlone : (state [0x5560] [] 0 [(5, 1)]).Inv ∧
    (nextOf (step (state [0x5560] [] 0 [(5, 1)]))).isSome = true ∧
    (state [0x5560] [] 0 [(5, 1)]).storeOf = some (0, 1) ∧ admitted (state [0x5560] [] 0 [(5, 1)]).params 0 ∧
    admitted (state [0x5560] [] 0 [(5, 1)]).params 0xFFFE := by decide
/-- A load from different memories into different registers. -/
theorem witness_StepControlIgnoresData : (state [0x4560] [] 0 []).params.unifiedMem = false ∧
    SameControl (state [0x4560] [] 0 []) (state [0x4560] [(2, 9)] 0 [(6, 2)]) ∧
    (nextOf (step (state [0x4560] [] 0 []))).map (fun t => t.status) = some .running ∧
    (nextOf (step (state [0x4560] [(2, 9)] 0 [(6, 2)]))).map (fun t => t.status) = some .running := by decide
theorem witness_ImageLinesCountUpFromZero :
    (imageWords Params.specDefault (parseProgram [hiLine])).toOption = some [0x68, 0x69, 0] ∧ [0x68#16, 0x69, 0].length ≤ 2 ^ 16 ∧
    [0x68#16, 0x69, 0][2]? = some 0 ∧ (∀ c ∈ ['h', 'i'], c.toNat < 256) :=
  ⟨by decide, by decide, by decide, by simp⟩
/-- Tokens that convert, one that has no decimal digits and one above 15. -/
theorem witness_BadRegisterTokensAreNamed :
    (∀ c ∈ ['$', 'r', '1'] ++ ['$', 'r', 'x'] ++ ['$', 'r', '1', '6'], isTokenChar c = true ∧ c ≠ '-') ∧
    registerNumber ['$', 'r', '1'] = some (1 : RegIndex).val ∧ (∀ i : RegIndex, registerNumber ['$', 'r', 'x'] ≠ some i.val) ∧
    (∀ i : RegIndex, registerNumber ['$', 'r', '1', '6'] ≠ some i.val) :=
  ⟨by simp [isTokenChar], by decide, by decide, by decide⟩
theorem witness_UnifiedStoreReachesFetch :
    (State.resetWith demoUnified).params.unifiedMem = true ∧ (State.resetWith demoUnified).params.xlen = 16 ∧
    Memory.wf (State.resetWith demoUnified).dmem ∧ admitted demoUnified.params ((State.resetWith demoUnified).regVal 6) ∧
    (State.resetWith demoUnified).regVal 6 < 2 * demoUnified.program.length := by decide
theorem witness_InvalidInstructionIsSoftwareOnly : (nextOf (step State.reset)).isSome = true := by decide
theorem witness_ParsedInstructionsAreWellFormed : parseLine ['J', ' ', '6'] = .machine (.j 0xC) := by decide
theorem witness_EveryDmemInitIsExpressible : Params.specDefault.WellFormed ∧ admitted Params.specDefault 0xFFFE := by decide
/-- A faulted run, and a run that idles: `J 0x0` at pc 0. -/
theorem witness_FinalStateHolds : 1 ≤ 2 ∧ (runFinal Launch.specDefault 1).status ≠ .running ∧
    nextOf (step (runFinal (launch [0x6000] []) 0)) = some (runFinal (launch [0x6000] []) 0) := by decide

/-! The host's two questions, asked here of one word: the decoder reads it and the first step runs it. -/

theorem test_first_step : step (State.reset.withFetchWord 16 0x3664) = exec (.ori 6 0x64) (State.reset.withFetchWord 16 0x3664) := rfl

end Sys2Proof.Tests
end

section
/-! SUPPORT. Proofs of the scope family (spec/00_scope.md): data memory at reset and the invariant there (R22), and a
listing for every function that `DMEM_INIT` may be (R6). -/

namespace Sys2Proof.Machine

/-- Data memory at reset is canonical where `DMEM_INIT` is, laid over by a program or not. -/
theorem Memory.wf_dmemAtReset {l : Launch} (h : Memory.wf l.dmemInit) : Memory.wf l.dmemAtReset := by
  unfold Launch.dmemAtReset
  split
  · exact Memory.wf_placeWords _ 0 h
  · exact h

/-- Data memory at reset lies inside its address space: `DMEM_INIT` does, and a program laid over it fits. -/
theorem Memory.below_dmemAtReset {l : Launch} (h : Memory.below l.dmemInit l.params.dmemBytes)
    (hfit : l.params.unifiedMem = true → 2 * l.program.length ≤ l.params.dmemBytes) :
    Memory.below l.dmemAtReset l.params.dmemBytes := by
  unfold Launch.dmemAtReset
  split
  · have hlen := hfit ‹_›
    exact Memory.below_placeWords _ 0 h (by omega)
  · exact h

/-- Reset under an accepted launch establishes the invariant. -/
theorem State.inv_resetWith {l : Launch} (h : l.WellFormed) : (State.resetWith l).Inv := by
  have ⟨_, _, hwf, hbelow, hpc, hfit⟩ := h
  exact ⟨h, hpc, Memory.wf_dmemAtReset hwf, Memory.below_dmemAtReset hbelow hfit⟩

/-- The spec's defaults are an accepted launch. -/
theorem wellFormed_specDefault : Launch.specDefault.WellFormed := by decide

/-- Settles O3: the defaults are one accepted launch, and reset under any establishes the invariant. -/
theorem resetMeetsTheInvariant : Obligations.ResetMeetsTheInvariant :=
  ⟨State.inv_resetWith wellFormed_specDefault, fun _ => State.inv_resetWith⟩

/-- The first `n` aligned words of a data memory whose word at address `a` is to be `f a`. -/
def Memory.listing (o : ByteOrder) {width : Nat} (f : Nat → BitVec width) : Nat → Memory
  | 0 => []
  | n + 1 => Memory.writeWord o (Memory.listing o f n) (n * (width / 8)) (f (n * (width / 8)))

section
variable (o : ByteOrder) {width : Nat} (f : Nat → BitVec width)

theorem Memory.wf_listing : ∀ n, Memory.wf (Memory.listing o f n)
  | 0 => ⟨List.Pairwise.nil, List.forall_mem_nil _⟩
  | n + 1 => Memory.wf_writeWord (Memory.wf_listing n) _ _

theorem Memory.below_listing {bound : Nat} : ∀ n, n * (width / 8) ≤ bound → Memory.below (Memory.listing o f n) bound
  | 0, _ => List.forall_mem_nil _
  | n + 1, h => by
    rw [Nat.succ_mul] at h
    exact Memory.below_writeWord (Memory.below_listing n (by omega)) h _

/-- The listing holds `f` at each of its words: the last one was just written, and no later one overlaps an earlier. -/
theorem Memory.readWord_listing (hw : width % 8 = 0) {k : Nat} : ∀ n, k < n →
    Memory.readWord o (Memory.listing o f n) width (k * (width / 8)) = f (k * (width / 8))
  | n + 1, h => by
    rw [Memory.listing]
    rcases Nat.lt_succ_iff_lt_or_eq.1 h with hk | rfl
    · have hend : k * (width / 8) + width / 8 ≤ n * (width / 8) := by
        rw [← Nat.succ_mul]
        exact Nat.mul_le_mul_right _ hk
      rw [Memory.readWord_writeWord_disjoint _ (.inl hend), Memory.readWord_listing hw n hk]
    · exact Memory.readWord_writeWord_self hw (Memory.wf_listing o f k) _ _

end

/-- An admitted address is that of one of the whole words that fit in the data address space (R35, R36). -/
theorem admitted_eq_mul {p : Params} (hp : 0 < p.wordBytes) {a : Nat} (h : admitted p a) :
    ∃ k < p.dmemBytes / p.wordBytes, a = k * p.wordBytes := by
  obtain ⟨halign, hfit⟩ := h
  obtain ⟨k, rfl⟩ := Nat.dvd_of_mod_eq_zero halign
  refine ⟨k, (Nat.le_div_iff_mul_le hp).2 ?_, Nat.mul_comm _ _⟩
  rw [Nat.succ_mul, Nat.mul_comm]
  exact hfit

/-- Settles O40: the listing of all whole words that fit in the data address space. -/
theorem everyDmemInitIsExpressible : Obligations.EveryDmemInitIsExpressible := by
  rintro p o f ⟨hbytes, hxlen, -⟩
  have hword : 0 < p.wordBytes := Nat.div_pos (by omega) (by decide)
  refine ⟨Memory.listing o f (p.dmemBytes / p.wordBytes), Memory.wf_listing o f _,
    Memory.below_listing o f _ (Nat.div_mul_le_self _ _), fun a ha => ?_⟩
  obtain ⟨k, hk, rfl⟩ := admitted_eq_mul hword ha
  exact Memory.readWord_listing o f hbytes _ hk

end Sys2Proof.Machine
end

section
/-! SUPPORT. Rules of the state family that its proofs share: what the decoder answers, the fetch in its three cases,
what a step and a granted step do to the launch and the status (spec/10_state.md R21, R23, spec/20_memory.md R32). -/

namespace Sys2Proof

/-- A jump immediate that the decoder builds is even (R57). -/
theorem wellFormed_j_jimmOf (f : BitVec 12) : (Instr.j (jimmOf f)).wellFormed = true := by
  rw [wellFormed_j_iff, jimmOf_toNat]
  omega

/-- What the decoder answers is well formed: only J has anything to check. -/
theorem wellFormed_of_decode {p : Params} {w : InstrWord} {i : Instr} (h : decode p w = .ok i) :
    i.wellFormed = true := by
  unfold decode at h
  split_ifs at h <;> cases h
  · rfl
  · rfl
  · rfl
  · rfl
  · rfl
  · exact wellFormed_j_jimmOf _

section
variable (op : BitVec 4) (r1 r2 : RegIndex) (imm : BitVec 8)

@[simp] theorem r1Field_formatR : r1Field (formatR op r1 r2) = r1 := by
  apply Fin.ext
  rw [r1Field_val, formatR_toNat]
  omega

@[simp] theorem r2Field_formatR : r2Field (formatR op r1 r2) = r2 := by
  apply Fin.ext
  rw [r2Field_val, formatR_toNat]
  omega

@[simp] theorem r1Field_formatM : r1Field (formatM op r1 r2) = r1 := by
  apply Fin.ext
  rw [r1Field_val, formatM_toNat]
  omega

@[simp] theorem r2Field_formatM : r2Field (formatM op r1 r2) = r2 := by
  apply Fin.ext
  rw [r2Field_val, formatM_toNat]
  omega

@[simp] theorem r1Field_formatI : r1Field (formatI op r1 imm) = r1 := by
  have := imm.isLt
  apply Fin.ext
  rw [r1Field_val, formatI_toNat]
  omega

@[simp] theorem imm8Field_formatI : imm8Field (formatI op r1 imm) = imm := by
  have := imm.isLt
  apply BitVec.eq_of_toNat_eq
  rw [imm8Field_toNat, formatI_toNat]
  omega

end

/-- The function code of an encoded AND is 1 at either width of the field (R54, R61). -/
theorem funcCode_formatR {p : Params} (h : p.aluFuncBits = 4 ∨ p.aluFuncBits = 2) (op : BitVec 4) (r1 r2 : RegIndex) :
    funcCode p (formatR op r1 r2) = 1 := by
  rw [funcCode, formatR_toNat]
  rcases h with h | h <;> rw [h] <;> omega

/-- An even jump immediate is read back from its word (R57). -/
theorem jimmOf_jField_formatJ (op : BitVec 4) {imm : BitVec 13} (h : imm.toNat % 2 = 0) :
    jimmOf (jField (formatJ op imm)) = imm := by
  have := imm.isLt
  apply BitVec.eq_of_toNat_eq
  rw [jimmOf_toNat, jField_toNat, formatJ_toNat]
  omega

/-- Decoding an encoded well-formed instruction gives it back: the opcodes are distinct, so the decoder takes the
instruction's own arm, and that arm's fields are read back (R67). -/
theorem decode_encode {p : Params} {i : Instr} (hp : p.WellFormed) (hi : i.wellFormed = true) :
    decode p (encode p i) = .ok i := by
  obtain ⟨-, -, -, ⟨-, hnodup⟩, hfunc, -⟩ := hp
  simp only [List.nodup_cons, List.mem_cons, List.not_mem_nil, or_false, not_or] at hnodup
  obtain ⟨⟨_, _, _, _, _⟩, ⟨_, _, _, _⟩, ⟨_, _, _⟩, ⟨_, _⟩, _, -⟩ := hnodup
  cases i with
  | and r1 r2 => simp [encode, decode, opcodeField_formatR, funcCode_formatR hfunc]
  | addi r1 imm => simp [encode, decode, opcodeField_formatI, *, eq_comm]
  | ori r1 imm => simp [encode, decode, opcodeField_formatI, *, eq_comm]
  | lw r1 r2 => simp [encode, decode, opcodeField_formatM, *, eq_comm]
  | sw r1 r2 => simp [encode, decode, opcodeField_formatM, *, eq_comm]
  | j imm =>
    simp [encode, decode, opcodeField_formatJ, *, eq_comm, jimmOf_jField_formatJ _ ((wellFormed_j_iff imm).1 hi)]

end Sys2Proof

namespace Sys2Proof.Machine

/-- The fetch beyond the program raises (R32). -/
theorem State.fetch_beyond {s : State} (h : s.launch.program.length ≤ s.pcVal / 2) :
    s.fetch = .error (.fetchFault s.pcVal) := by
  have hk : s.launch.program[s.fetchIndex]? = none := List.getElem?_eq_none h
  unfold State.fetch
  rw [hk]
  rfl

/-- The fetch inside the program answers its word, or what data memory holds there under `UNIFIED_MEM = true`. -/
theorem State.fetch_inside {s : State} {v : InstrWord} (h : s.launch.program[s.pcVal / 2]? = some v) :
    s.fetch = .ok (if s.params.unifiedMem then Memory.readWord s.order s.dmem 16 (2 * (s.pcVal / 2)) else v) := by
  have hk : s.launch.program[s.fetchIndex]? = some v := h
  unfold State.fetch
  rw [hk]
  rfl

theorem State.fetchDecode_of_fetch_error {s : State} {f : Fault} (h : s.fetch = .error f) :
    s.fetchDecode = .error f := by
  unfold State.fetchDecode
  rw [h]

theorem State.fetchDecode_of_decode_error {s : State} {w : InstrWord} {e : DecodeError} (hf : s.fetch = .ok w)
    (hd : decode s.params w = .error e) : s.fetchDecode = .error (decodeFault e) := by
  unfold State.fetchDecode
  rw [hf]
  dsimp only
  rw [hd]

theorem State.fetchDecode_of_decode {s : State} {w : InstrWord} {i : Instr} (hf : s.fetch = .ok w)
    (hd : decode s.params w = .ok i) : s.fetchDecode = .ok i := by
  unfold State.fetchDecode
  rw [hf]
  dsimp only
  rw [hd]

/-- A faulting fetch or decode is one of these: the pc is beyond the program, or the fetched word does not decode
(R127). -/
theorem State.fetchDecode_error {s : State} {f : Fault} (h : s.fetchDecode = .error f) :
    f = .fetchFault s.pcVal ∨ ∃ e, f = decodeFault e := by
  cases hp : s.launch.program[s.pcVal / 2]? with
  | none =>
    rw [State.fetchDecode_of_fetch_error (State.fetch_beyond (List.getElem?_eq_none_iff.1 hp))] at h
    cases h
    exact .inl rfl
  | some v =>
    have hf := State.fetch_inside hp
    cases hd : decode s.params (if s.params.unifiedMem then _ else v) with
    | error e =>
      rw [State.fetchDecode_of_decode_error hf hd] at h
      cases h
      exact .inr ⟨e, rfl⟩
    | ok i =>
      rw [State.fetchDecode_of_decode hf hd] at h
      cases h

/-- The instruction a step runs is well formed. -/
theorem State.wellFormed_of_fetchDecode {s : State} {i : Instr} (h : s.fetchDecode = .ok i) :
    i.wellFormed = true := by
  unfold State.fetchDecode at h
  split at h
  · cases h
  · split at h
    · cases h
    · cases h
      exact wellFormed_of_decode ‹_›

/-- A running core at an even pc whose fetch or decode fails raises. -/
theorem step_of_error {s : State} {f : Fault} (hr : s.status = .running) (hp : s.pc.toNat % 2 = 0)
    (h : s.fetchDecode = .error f) : step s = .next (s.raise f) := by
  rw [step_running hr hp, h]

/-- A running core at an even pc runs the instruction it decodes. -/
theorem step_of_ok {s : State} {i : Instr} (hr : s.status = .running) (hp : s.pc.toNat % 2 = 0)
    (h : s.fetchDecode = .ok i) : step s = exec i s := by
  rw [step_running hr hp, h]

/-- A running core at an odd pc is refused (R14). -/
theorem step_odd {s : State} (hr : s.status = .running) (hp : s.pc.toNat % 2 = 1) : step s = .refused .oddPc := by
  unfold step
  rw [hr]
  exact if_pos hp

/-- A running core at an even pc has a step. -/
theorem exists_step {s : State} (hr : s.status = .running) (hp : s.pc.toNat % 2 = 0) : ∃ t, step s = .next t := by
  cases h : s.fetchDecode with
  | error f => exact ⟨_, step_of_error hr hp h⟩
  | ok i =>
    obtain ⟨t, ht, -⟩ := exec_cases i s
    exact ⟨t, (step_of_ok hr hp h).trans ht⟩

/-- No instruction changes the launch. -/
theorem ExecCase.launch_eq {i : Instr} {s t : State} (h : ExecCase i s t) : t.launch = s.launch := by
  cases h <;> rfl

/-- An instruction leaves the status as it is, unless it raises a `MemFault`. -/
theorem ExecCase.status_cases {i : Instr} {s t : State} (h : ExecCase i s t) :
    t.status = s.status ∨ ∃ a k, t.status = .faulted (.memFault a k) := by
  cases h with
  | raised r2 k _ => exact .inr ⟨_, k, rfl⟩
  | wrote r v => exact .inl rfl
  | stored r1 r2 hi h => exact .inl rfl
  | jumped imm hi => exact .inl rfl

/-- The next state that `exec` answers is one of the four kinds. -/
theorem execCase_of_exec {i : Instr} {s t : State} (h : exec i s = .next t) : ExecCase i s t := by
  obtain ⟨t', ht', hc⟩ := exec_cases i s
  cases h.symm.trans ht'
  exact hc

/-- No step changes the launch (R21). -/
theorem step_launch {s t : State} (h : step s = .next t) : t.launch = s.launch := by
  obtain ⟨-, -, ⟨f, -, rfl⟩ | ⟨i, -, hx⟩⟩ := step_cases h
  · rfl
  · exact (execCase_of_exec hx).launch_eq

/-- A granted step is the step, where there is one. -/
theorem State.grant_of_step {s t : State} (h : step s = .next t) : s.grant = t := by
  unfold State.grant
  rw [h]

theorem State.grant_faulted {s : State} {f : Fault} (h : s.status = .faulted f) : s.grant = s := by
  unfold State.grant
  rw [step_faulted h]

theorem State.grant_odd {s : State} (hr : s.status = .running) (hp : s.pc.toNat % 2 = 1) : s.grant = s := by
  unfold State.grant
  rw [step_odd hr hp]

/-- What every step keeps, any number of granted steps keeps. -/
theorem State.grants_induction {P : State → Prop} (hstep : ∀ s t, P s → step s = .next t → P t) :
    ∀ (n : Nat) {s : State}, P s → P (s.grants n)
  | 0, _, h => h
  | n + 1, s, h => by
    refine State.grants_induction hstep n ?_
    unfold State.grant
    split
    · exact hstep s _ h ‹_›
    · exact h
    · exact h

/-- The launch is constant in a run (R21). -/
theorem State.grants_launch (s : State) (n : Nat) : (s.grants n).launch = s.launch :=
  State.grants_induction (P := fun t => t.launch = s.launch) (fun _ _ ht h => (step_launch h).trans ht) n rfl

/-- A core that runs after a granted step ran before it (R125). -/
theorem State.running_of_grant {s : State} (h : s.grant.status = .running) : s.status = .running := by
  cases hs : s.status with
  | running => rfl
  | faulted f =>
    rw [State.grant_faulted hs, hs] at h
    cases h

end Sys2Proof.Machine
end

section
/-! SUPPORT. Proofs of the state family (spec/10_state.md): the invariant and the even pc (R13, R14), the launch and the
reset values (R21, R22), the step (R23, R127), and the registers an instruction names (R12). -/

namespace Sys2Proof.Machine

/-- The advanced pc of an even pc is even: the pc wraps at an even number (R13). -/
theorem State.pcPlus2_even {s : State} (hn : 13 ≤ s.params.pclen) (h : s.pc.toNat % 2 = 0) :
    s.pcPlus2.toNat % 2 = 0 := by
  have hdvd : 2 ∣ 2 ^ s.params.pclen := dvd_pow_self 2 (by omega)
  rw [State.pcPlus2_toNat, Nat.mod_mod_of_dvd _ hdvd, State.pcVal]
  omega

/-- A well-formed instruction keeps the invariant. -/
theorem ExecCase.inv {i : Instr} {s t : State} (hi : i.wellFormed = true) (hs : s.Inv) (h : ExecCase i s t) :
    t.Inv := by
  have ⟨hl, hpc, hwf, hbelow⟩ := hs
  have ⟨⟨_, _, hpclen, _⟩, _⟩ := hl
  have hpc2 := State.pcPlus2_even hpclen hpc
  cases h with
  | wrote r v => exact ⟨hl, hpc2, hwf, hbelow⟩
  | stored r1 r2 _ ha =>
    exact ⟨hl, hpc2, Memory.wf_writeWord hwf _ _, Memory.below_writeWord hbelow ha.2 _⟩
  | jumped imm heq =>
    subst heq
    exact ⟨hl, jumpTarget_even _ hpc2 ((wellFormed_j_iff imm).1 hi), hwf, hbelow⟩
  | raised r2 k _ => exact hs

/-- Settles O4: a raise changes the status alone, and the instruction that runs came from the decoder. -/
theorem stepKeepsTheInvariant : Obligations.StepKeepsTheInvariant := by
  intro s t hs h
  obtain ⟨-, -, ⟨f, -, rfl⟩ | ⟨i, hd, hx⟩⟩ := step_cases h
  · exact hs
  · exact (execCase_of_exec hx).inv (State.wellFormed_of_fetchDecode hd) hs

/-- The pc of an instruction that completes is the one its control word gives, whatever the data (R69, R110). -/
theorem pcVal_of_exec {i : Instr} {s t : State} (h : exec i s = .next t) (hr : t.status = .running) :
    t.pcVal = ((controlOf i).pcOut s).toNat := by
  cases i with
  | and r1 r2 => cases h; rfl
  | addi r1 imm => cases h; rfl
  | ori r1 imm => cases h; rfl
  | j imm => cases h; rfl
  | lw r1 r2 =>
    rw [exec, execLw_eq] at h
    split at h
    · cases h; rfl
    · cases h; cases hr
  | sw r1 r2 =>
    rw [exec, execSw_eq] at h
    split at h
    · cases h; rfl
    · cases h; cases hr

/-- The pc that a control word gives depends on the parameters and the pc alone. -/
theorem Control.pcOut_of_sameControl (c : Control) {s u : State} (h : SameControl s u) :
    (c.pcOut u).toNat = (c.pcOut s).toNat := by
  obtain ⟨⟨p, _, _, _, _, _⟩, _, pc, _, _⟩ := s
  obtain ⟨⟨q, _, _, _, _, _⟩, _, pc', _, _⟩ := u
  obtain ⟨hparams, -, hpc⟩ := h
  obtain rfl : q = p := hparams
  obtain rfl : pc' = pc := BitVec.eq_of_toNat_eq hpc
  rfl

/-- A step that leaves the core running ran an instruction. -/
theorem exec_of_step_running {s t : State} (h : step s = .next t) (ht : t.status = .running) :
    ∃ i, s.fetchDecode = .ok i ∧ exec i s = .next t := by
  obtain ⟨-, -, ⟨f, -, rfl⟩ | hx⟩ := step_cases h
  · cases ht
  · exact hx

/-- Settles O44: both states decode the same instruction, and its next pc does not depend on data. -/
theorem stepControlIgnoresData : Obligations.StepControlIgnoresData := by
  intro s u t w hu hsame hs hu' ht hw
  obtain ⟨i, hi, hxs⟩ := exec_of_step_running hs ht
  obtain ⟨j, hj, hxu⟩ := exec_of_step_running hu' hw
  rw [fetchDecode_of_sameControl hsame hu, hi] at hj
  cases hj
  have hpc := (controlOf i).pcOut_of_sameControl hsame
  rw [← pcVal_of_exec hxs ht, ← pcVal_of_exec hxu hw] at hpc
  obtain ⟨hparams, hprogram, -⟩ := hsame
  refine ⟨?_, ?_, hpc⟩
  · rw [State.params, step_launch hu', State.params, step_launch hs]
    exact hparams
  · rw [step_launch hu', step_launch hs, hprogram]

/-- Every state of a run from a state that meets the invariant meets it. -/
theorem State.inv_grants {s : State} (h : s.Inv) (n : Nat) : (s.grants n).Inv :=
  State.grants_induction stepKeepsTheInvariant n h

/-- What `load` accepts is a launch that meets the constraints, and the core is then in its reset state (R150). -/
theorem load_eq_some {l : Launch} {s : State} : load l = some s ↔ l.WellFormed ∧ State.resetWith l = s := by
  unfold load
  split
  · rw [Option.some.injEq, and_iff_right ‹_›]
  · exact ⟨fun h => (nomatch h), fun ⟨hl, _⟩ => absurd hl ‹_›⟩

/-- Settles O5: evenness of `RESET_PC` is a constraint on launches, and evenness of the pc part of the invariant. -/
theorem everyReachablePcIsEven : Obligations.EveryReachablePcIsEven := by
  refine ⟨fun l hodd => ?_, fun l s n h => ?_⟩
  · rw [Option.eq_none_iff_forall_ne_some]
    intro s h
    obtain ⟨⟨_, _, _, _, heven, _⟩, -⟩ := load_eq_some.1 h
    omega
  · obtain ⟨hl, rfl⟩ := load_eq_some.1 h
    obtain ⟨-, hpc, -⟩ := State.inv_grants (State.inv_resetWith hl) n
    exact hpc

/-- Settles O6: the invariant gives the even pc. -/
theorem runningCoreAlwaysSteps : Obligations.RunningCoreAlwaysSteps :=
  fun _ ⟨_, hpc, _⟩ hr => exists_step hr hpc

/-- Two running cores at the same control point are at the same one after a granted step that leaves both running. -/
theorem SameControl.grant {s u : State} (hsep : s.params.unifiedMem = false) (h : SameControl s u)
    (hs : s.grant.status = .running) (hu : u.grant.status = .running) : SameControl s.grant u.grant := by
  have ⟨_, _, hpc⟩ := h
  have hrs := State.running_of_grant hs
  have hru := State.running_of_grant hu
  rcases Nat.mod_two_eq_zero_or_one s.pcVal with hp | hp
  · obtain ⟨t, ht⟩ := exists_step hrs hp
    obtain ⟨w, hw⟩ := exists_step hru (hpc.symm ▸ hp : u.pcVal % 2 = 0)
    rw [State.grant_of_step ht] at hs ⊢
    rw [State.grant_of_step hw] at hu ⊢
    exact stepControlIgnoresData s u t w hsep h ht hw hs hu
  · rw [State.grant_odd hrs hp, State.grant_odd hru (hpc.symm ▸ hp : u.pcVal % 2 = 1)]
    exact h

/-- Two runs that start at the same control point are at the same one for as long as both are running. -/
theorem SameControl.grants {s u : State} (hsep : s.params.unifiedMem = false) (h : SameControl s u) : ∀ n,
    (s.grants n).status = .running → (u.grants n).status = .running → SameControl (s.grants n) (u.grants n)
  | 0, _, _ => h
  | n + 1, hs, hu => by
    simp only [State.grants_succ] at hs hu ⊢
    have ih := SameControl.grants hsep h n (State.running_of_grant hs) (State.running_of_grant hu)
    refine ih.grant ?_ hs hu
    rw [State.params, State.grants_launch]
    exact hsep

/-- Settles O33: the two reset states are at the same control point. -/
theorem controlFlowIgnoresData : Obligations.ControlFlowIgnoresData := by
  intro l x d n hsep hs hu
  have hreset : SameControl (State.resetWith l) (State.resetWith { l with resetReg := x, dmemInit := d }) :=
    ⟨rfl, rfl, rfl⟩
  obtain ⟨-, -, hpc⟩ := SameControl.grants hsep hreset n hs hu
  exact hpc

/-- Settles O35: a raise keeps the launch, and so does every instruction. -/
theorem stepKeepsTheLaunch : Obligations.StepKeepsTheLaunch := fun _ _ => step_launch

/-- Data memory at reset under separate memories is `DMEM_INIT` (R22). -/
theorem dmemAtReset_separate {l : Launch} (h : l.params.unifiedMem = false) : l.dmemAtReset = l.dmemInit := by
  rw [Launch.dmemAtReset, h]
  rfl

/-- Settles O1: every register of the default launch is reset to 0, and every other value is the launch's own. -/
theorem resetLeavesTheResetValues : Obligations.ResetLeavesTheResetValues := by
  refine ⟨fun r => ?_, rfl, rfl, fun l hsep => ⟨fun _ => rfl, rfl, rfl, dmemAtReset_separate hsep, rfl⟩⟩
  have hx : State.reset.x[r.val] = 0#16 := Vector.getElem_replicate r.isLt
  rw [State.regVal, State.reg, hx]
  rfl

/-- Settles O22: the fetch beyond and inside the program, then the decoder's three answers. -/
theorem stepRunsTheDecodedInstruction : Obligations.StepRunsTheDecodedInstruction := by
  intro s hr hp
  refine ⟨fun hlen => ?_, fun v w hv hw => ?_⟩
  · exact step_of_error hr hp (State.fetchDecode_of_fetch_error (State.fetch_beyond hlen))
  · have hf : s.fetch = .ok w := hw ▸ State.fetch_inside hv
    exact ⟨fun hd => step_of_error hr hp (State.fetchDecode_of_decode_error hf hd),
      fun hd => step_of_error hr hp (State.fetchDecode_of_decode_error hf hd),
      fun i hd => step_of_ok hr hp (State.fetchDecode_of_decode hf hd)⟩

/-- No fetch and no decode raises `InvalidInstruction`. -/
theorem State.fetchDecode_ne_invalidInstruction (s : State) : s.fetchDecode ≠ .error .invalidInstruction := by
  intro h
  obtain h | ⟨_ | _, h⟩ := State.fetchDecode_error h <;> cases h

/-- Settles O38: a step that faults does so in the fetch, in the decoder or in a data access. -/
theorem invalidInstructionIsSoftwareOnly : Obligations.InvalidInstructionIsSoftwareOnly := by
  refine ⟨fun _ _ => rfl, fun _ _ => rfl, fun s t h ht => ?_⟩
  obtain ⟨hr, -, ⟨f, hf, rfl⟩ | ⟨i, -, hx⟩⟩ := step_cases h
  · cases ht
    exact s.fetchDecode_ne_invalidInstruction hf
  · obtain hst | ⟨a, k, hst⟩ := (execCase_of_exec hx).status_cases
    · rw [hst, hr] at ht
      cases ht
    · rw [hst] at ht
      cases ht

/-- The state with another register file. -/
def State.withRegs (s : State) (x : Vector s.Word 16) : State := { s with x := x }

/-- The state at another pc. -/
def State.withPc (s : State) (q : s.PcWord) : State := { s with pc := q }

/-- What R12 says of one instruction, for its result `t` from `s` and its result `u` from `s` with other registers:
the same pc, memory and status, the same written register if it completes, and no other register changed. -/
def SameResult (i : Instr) (s t u : State) : Prop :=
  u.pcVal = t.pcVal ∧ u.dmem = t.dmem ∧ u.status = t.status ∧
    (∀ r ∈ writesOf i, t.status = .running → u.regVal r = t.regVal r) ∧
    (∀ r, r ∉ writesOf i → t.regVal r = s.regVal r)

section
variable {i : Instr} (s : State) (x : Vector s.Word 16)

/-- A write-back of one value over either register file. -/
theorem sameResult_writeBack {r : RegIndex} (hw : writesOf i = [r]) (v : s.Word) :
    SameResult i s (s.writeBack r v) ((s.withRegs x).writeBack r v) := by
  rw [SameResult, hw]
  refine ⟨rfl, rfl, rfl, fun q hq _ => ?_, fun q hq => ?_⟩
  · obtain rfl := List.mem_singleton.1 hq
    exact ((s.withRegs x).regVal_writeBack q v).trans (s.regVal_writeBack q v).symm
  · obtain ⟨hother, -⟩ := s.onlyRegisterChanges_writeBack r v
    exact hother q fun h => hq (List.mem_singleton.2 h)

/-- A completion that writes no register. -/
theorem sameResult_commit (hw : writesOf i = []) (d : Memory) (pc : s.PcWord) :
    SameResult i s (s.commit s.x d pc) ((s.withRegs x).commit x d pc) := by
  rw [SameResult, hw]
  exact ⟨rfl, rfl, rfl, fun q hq => absurd hq List.not_mem_nil, fun _ _ => rfl⟩

/-- A raise: the instruction did not complete, so nothing is claimed of the register it would have written. -/
theorem sameResult_raise (f : Fault) : SameResult i s (s.raise f) ((s.withRegs x).raise f) :=
  ⟨rfl, rfl, rfl, fun _ _ hr => absurd hr Status.noConfusion, fun _ _ => rfl⟩

end

/-- An instruction gives the same result over any two register files that agree on the registers it reads. -/
theorem exec_withRegs (i : Instr) (s : State) (x : Vector s.Word 16) (h : ∀ r ∈ readsOf i, x[r.val] = s.reg r) :
    ∃ t u, exec i s = .next t ∧ exec i (s.withRegs x) = .next u ∧ SameResult i s t u := by
  cases i with
  | and r1 r2 =>
    have h1 : (s.withRegs x).reg r1 = s.reg r1 := h r1 (by simp [readsOf])
    have h2 : (s.withRegs x).reg r2 = s.reg r2 := h r2 (by simp [readsOf])
    simp only [exec, execAnd, h1, h2]
    exact ⟨_, _, rfl, rfl, sameResult_writeBack s x rfl _⟩
  | addi r1 imm =>
    have h1 : (s.withRegs x).reg r1 = s.reg r1 := h r1 (by simp [readsOf])
    simp only [exec, execAddi, h1]
    exact ⟨_, _, rfl, rfl, sameResult_writeBack s x rfl _⟩
  | ori r1 imm =>
    have h1 : (s.withRegs x).reg r1 = s.reg r1 := h r1 (by simp [readsOf])
    simp only [exec, execOri, h1]
    exact ⟨_, _, rfl, rfl, sameResult_writeBack s x rfl _⟩
  | lw r1 r2 =>
    have haddr : (s.withRegs x).reg r2 = s.reg r2 := h r2 (by simp [readsOf])
    simp only [exec, execLw_eq, haddr]
    by_cases ha : admitted s.params (s.reg r2).toNat
    · exact ⟨_, _, if_pos ha, if_pos ha, sameResult_writeBack s x rfl _⟩
    · exact ⟨_, _, if_neg ha, if_neg ha, sameResult_raise s x _⟩
  | sw r1 r2 =>
    have haddr : (s.withRegs x).reg r2 = s.reg r2 := h r2 (by simp [readsOf])
    have hvalue : (s.withRegs x).reg r1 = s.reg r1 := h r1 (by simp [readsOf])
    simp only [exec, execSw_eq, haddr, hvalue]
    by_cases ha : admitted s.params (s.reg r2).toNat
    · exact ⟨_, _, if_pos ha, if_pos ha, sameResult_commit s x rfl _ _⟩
    · exact ⟨_, _, if_neg ha, if_neg ha, sameResult_raise s x _⟩
  | j imm => exact ⟨_, _, rfl, rfl, sameResult_commit s x rfl _ _⟩

/-- The registers of an instruction's result do not depend on the pc. -/
theorem exec_withPc (i : Instr) (s : State) (q : s.PcWord) :
    ∃ t u, exec i s = .next t ∧ exec i (s.withPc q) = .next u ∧ ∀ r, u.regVal r = t.regVal r := by
  cases i with
  | and r1 r2 => exact ⟨_, _, rfl, rfl, fun _ => rfl⟩
  | addi r1 imm => exact ⟨_, _, rfl, rfl, fun _ => rfl⟩
  | ori r1 imm => exact ⟨_, _, rfl, rfl, fun _ => rfl⟩
  | j imm => exact ⟨_, _, rfl, rfl, fun _ => rfl⟩
  | lw r1 r2 =>
    simp only [exec, execLw_eq]
    by_cases ha : admitted s.params (s.reg r2).toNat
    · exact ⟨_, _, if_pos ha, if_pos ha, fun _ => rfl⟩
    · exact ⟨_, _, if_neg ha, if_neg ha, fun _ => rfl⟩
  | sw r1 r2 =>
    simp only [exec, execSw_eq]
    by_cases ha : admitted s.params (s.reg r2).toNat
    · exact ⟨_, _, if_pos ha, if_pos ha, fun _ => rfl⟩
    · exact ⟨_, _, if_neg ha, if_neg ha, fun _ => rfl⟩

/-- Settles O15: instruction by instruction. -/
theorem onlyNamedRegistersMatter : Obligations.OnlyNamedRegistersMatter :=
  ⟨fun i s x _ h => exec_withRegs i s x h, exec_withPc⟩

/-- The even pc at or just below a pc is even, and has the same word address. -/
theorem evenPc_toNat {n : Nat} (pc : BitVec n) : (evenPc pc).toNat = 2 * (pc.toNat / 2) := by
  unfold evenPc
  split
  · omega
  · have hle : 1#n ≤ pc := by
      rw [BitVec.le_def, BitVec.toNat_ofNat]
      exact (Nat.mod_le _ _).trans (by omega)
    have hone : 1 % 2 ^ n = 1 := Nat.mod_eq_of_lt (by have := pc.isLt; omega)
    rw [BitVec.toNat_sub_of_le hle, BitVec.toNat_ofNat, hone]
    omega

/-- The pc where a word was placed as a number. -/
theorem State.placeFetchWord_pcVal (s : State) (w : InstrWord) :
    (s.placeFetchWord w).pcVal = 2 * s.fetchIndex := evenPc_toNat s.pc

/-- The step fetches the placed word, from the program or, under `UNIFIED_MEM = true`, from data memory. -/
theorem State.fetch_placeFetchWord {s : State} (h : Memory.wf s.dmem) (w : InstrWord) :
    (s.placeFetchWord w).fetch = .ok w := by
  have hk : (s.placeFetchWord w).pcVal / 2 = s.fetchIndex := by
    rw [State.placeFetchWord_pcVal, Nat.mul_div_cancel_left _ (by decide)]
  have hp : (s.placeFetchWord w).launch.program[(s.placeFetchWord w).pcVal / 2]? = some w := by
    rw [hk]
    exact programWith_getElem? _ _ _
  rw [State.fetch_inside hp, hk, State.placeFetchWord_params]
  cases hu : s.params.unifiedMem with
  | false => rfl
  | true =>
    have hd : (s.placeFetchWord w).dmem = Memory.writeWord s.order s.dmem (2 * s.fetchIndex) w := if_pos hu
    rw [hd]
    exact congrArg Except.ok (Memory.readWord_writeWord_self (by rfl) h _ w)

/-- All 16 bits of a table word are the instruction word. -/
theorem tableWord_toNat (w : InstrWord) : tableWord 16 w.toNat = w := by
  rw [tableWord, Nat.mod_eq_of_lt w.isLt, BitVec.ofNat_toNat, BitVec.setWidth_eq]

/-- Settles O23: the placed word is fetched and decodes to the instruction it encodes. -/
theorem placedWordRunsNext : Obligations.PlacedWordRunsNext := by
  intro s i hp hwf hi
  rw [State.withFetchWord, tableWord_toNat]
  have heven : (s.placeFetchWord (encode s.params i)).pcVal % 2 = 0 := by
    rw [State.placeFetchWord_pcVal, Nat.mul_mod_right]
  exact step_of_ok (State.placeFetchWord_status _ _) heven
    (State.fetchDecode_of_decode (State.fetch_placeFetchWord hwf _) (decode_encode hp hi))

end Sys2Proof.Machine
end

section
/-! SUPPORT. Proofs of the memory family (spec/20_memory.md): the data interfaces (R33, R34, R36), what a step does to
data memory and what any run leaves there (R30, R33, R34), separate memories (R45) and the byte order (R38). -/

namespace Sys2Proof.Machine

/-- A data read succeeds exactly at the admitted addresses (R33, R36). -/
theorem State.memRead_ok_iff {s : State} {addr : s.Word} :
    (∃ w, s.memRead addr = .ok w) ↔ admitted s.params addr.toNat := by
  refine ⟨fun ⟨w, hw⟩ => ?_, fun h => ⟨_, State.memRead_admitted h⟩⟩
  by_contra h
  rw [State.memRead_not_admitted h] at hw
  cases hw

/-- A data write succeeds exactly at the admitted addresses (R34, R36). -/
theorem State.memWrite_ok_iff {s : State} {addr v : s.Word} :
    (∃ m, s.memWrite addr v = .ok m) ↔ admitted s.params addr.toNat := by
  refine ⟨fun ⟨m, hm⟩ => ?_, fun h => ⟨_, State.memWrite_admitted v h⟩⟩
  by_contra h
  rw [State.memWrite_not_admitted v h] at hm
  cases hm

/-- Settles O19: at the defaults a word is two bytes, and every even 16-bit address leaves room for one. -/
theorem admittedAddresses : Obligations.AdmittedAddresses := by
  refine ⟨fun _ _ _ => ⟨State.memRead_ok_iff, State.memWrite_ok_iff⟩, fun a => ?_⟩
  have hlt := a.isLt
  change (a.toNat % 2 = 0 ∧ a.toNat + 2 ≤ 2 ^ 16) ↔ a.toNat % 2 = 0
  omega

/-- An admitted word after a word write at an admitted address: the written one holds the value, and every other one
is as it was, since admitted words do not overlap (R34, R37). -/
theorem Memory.readWord_writeWord_admitted {p : Params} {o : ByteOrder} {m : Memory} (hbytes : p.xlen % 8 = 0)
    (hwf : Memory.wf m) {a b : Nat} (ha : admitted p a) (hb : admitted p b) (v : p.Word) :
    Memory.readWord o (Memory.writeWord o m a v) p.xlen b = if b = a then v else Memory.readWord o m p.xlen b := by
  split
  · subst b
    exact Memory.readWord_writeWord_self hbytes hwf a v
  · exact Memory.readWord_writeWord_disjoint v (aligned_disjoint ha.1 hb.1 ‹_›)

/-- What a read of an admitted address answers after a word is written at one (R33, R34). -/
theorem State.memRead_writeWord {s : State} (hbytes : s.params.xlen % 8 = 0) (hwf : Memory.wf s.dmem) {addr b : s.Word}
    (ha : admitted s.params addr.toNat) (hb : admitted s.params b.toNat) (v : s.Word) :
    State.memRead { s with dmem := Memory.writeWord s.order s.dmem addr.toNat v } b =
      .ok (if b.toNat = addr.toNat then v else Memory.readWord s.order s.dmem s.params.xlen b.toNat) :=
  (State.memRead_admitted (s := { s with dmem := Memory.writeWord s.order s.dmem addr.toNat v }) hb).trans
    (congrArg Except.ok (Memory.readWord_writeWord_admitted hbytes hwf ha hb v))

/-- Settles O16: a read of the address written, and of another. -/
theorem storedWordIsReadBack : Obligations.StoredWordIsReadBack := by
  intro s addr v hbytes hwf
  refine ⟨fun ha => ⟨_, State.memWrite_admitted v ha, ?_, fun b hb hne => ?_⟩, State.memWrite_not_admitted v⟩
  · rw [State.memRead_writeWord hbytes hwf ha ha, if_pos rfl]
  · have hne' : b.toNat ≠ addr.toNat := fun h => hne (BitVec.eq_of_toNat_eq h)
    rw [State.memRead_writeWord hbytes hwf ha hb, if_neg hne', State.memRead_admitted hb]

/-- A step that decodes no SW at an admitted address stores nothing. -/
theorem State.storeOf_eq_none {s : State}
    (h : ∀ r1 r2, s.fetchDecode = .ok (.sw r1 r2) → ¬ admitted s.params (s.regVal r2)) : s.storeOf = none := by
  unfold State.storeOf
  split
  · exact if_neg (h _ _ ‹_›)
  · rfl

/-- A running core that decodes a SW at an admitted address stores `x[r1]` there. -/
theorem State.storeOf_eq_some {s : State} {r1 r2 : RegIndex} (hr : s.status = .running)
    (hd : s.fetchDecode = .ok (.sw r1 r2)) (ha : admitted s.params (s.regVal r2)) :
    s.storeOf = some (s.regVal r2, s.regVal r1) := by
  unfold State.storeOf
  rw [hr, hd]
  exact if_pos ha

/-- A faulted core stores nothing (R125). -/
theorem State.storeOf_faulted {s : State} {f : Fault} (h : s.status = .faulted f) : s.storeOf = none := by
  unfold State.storeOf
  rw [h]

/-- What an instruction does to data memory: nothing, unless it is a SW at an admitted address (R34). -/
theorem dmem_of_exec {i : Instr} {s t : State} (h : exec i s = .next t) :
    (t.dmem = s.dmem ∧ ∀ r1 r2, i = .sw r1 r2 → ¬ admitted s.params (s.regVal r2)) ∨
    ∃ r1 r2, i = .sw r1 r2 ∧ admitted s.params (s.regVal r2) ∧
      t.dmem = Memory.writeWord s.order s.dmem (s.regVal r2) (s.reg r1) := by
  by_cases hsw : ∃ r1 r2, i = .sw r1 r2
  · obtain ⟨r1, r2, rfl⟩ := hsw
    rw [exec, execSw_eq] at h
    split at h
    · cases h
      exact .inr ⟨r1, r2, rfl, ‹_›, rfl⟩
    · cases h
      exact .inl ⟨rfl, fun _ _ heq => by cases heq; assumption⟩
  · refine .inl ⟨?_, fun r1 r2 heq => absurd ⟨r1, r2, heq⟩ hsw⟩
    cases execCase_of_exec h with
    | stored r1 r2 heq _ => exact absurd ⟨r1, r2, heq⟩ hsw
    | wrote r v => rfl
    | jumped imm _ => rfl
    | raised r2 k _ => rfl

/-- What a step does to data memory: nothing, unless it stores a word (R30, R34). -/
theorem dmem_of_step {s t : State} (h : step s = .next t) :
    (t.dmem = s.dmem ∧ s.storeOf = none) ∨
    ∃ r1 r2, s.fetchDecode = .ok (.sw r1 r2) ∧ admitted s.params (s.regVal r2) ∧
      s.storeOf = some (s.regVal r2, s.regVal r1) ∧
      t.dmem = Memory.writeWord s.order s.dmem (s.regVal r2) (s.reg r1) := by
  obtain ⟨hr, -, ⟨f, hd, rfl⟩ | ⟨i, hd, hx⟩⟩ := step_cases h
  · refine .inl ⟨rfl, State.storeOf_eq_none fun r1 r2 hsw => ?_⟩
    rw [hd] at hsw
    cases hsw
  · obtain ⟨heq, hno⟩ | ⟨r1, r2, rfl, ha, heq⟩ := dmem_of_exec hx
    · refine .inl ⟨heq, State.storeOf_eq_none fun r1 r2 hsw => hno r1 r2 ?_⟩
      rw [hd] at hsw
      cases hsw
      rfl
    · exact .inr ⟨r1, r2, hd, ha, State.storeOf_eq_some hr hd ha, heq⟩

/-- Settles O18: a store leaves every byte outside its word alone. -/
theorem onlyStoresChangeMemory : Obligations.OnlyStoresChangeMemory := by
  intro s t h
  obtain ⟨heq, -⟩ | ⟨r1, r2, hd, ha, -, heq⟩ := dmem_of_step h
  · exact .inl fun a => by rw [heq]
  · refine .inr ⟨r1, r2, hd, ha, fun a hout => ?_⟩
    rw [heq]
    exact Memory.readByte_writeWord_outside _ hout

/-- A data word, by the parameters and the byte order of any state under the same launch. -/
theorem State.wordVal_of_launch {s t : State} (h : t.launch = s.launch) (a : Nat) :
    t.wordVal a = (Memory.readWord s.order t.dmem s.params.xlen a).toNat := by
  unfold State.wordVal State.order State.params
  rw [h]

/-- Settles O43: a store writes its own word, and no other admitted one. -/
theorem stepWritesTheStoredWordAlone : Obligations.StepWritesTheStoredWordAlone := by
  rintro s t ⟨⟨⟨hbytes, -⟩, -⟩, -, hwf, -⟩ h a ha
  rw [State.wordVal_of_launch (step_launch h)]
  obtain ⟨heq, hs⟩ | ⟨r1, r2, -, hb, hs, heq⟩ := dmem_of_step h
  · rw [heq, hs]
    rfl
  · rw [heq, hs, Memory.readWord_writeWord_admitted hbytes hwf hb ha, apply_ite BitVec.toNat]
    exact if_congr eq_comm rfl rfl

/-- A run is under the launch it started from (R21). -/
theorem runFinal_params (l : Launch) (n : Nat) : (runFinal l n).params = l.params :=
  congrArg Launch.params (State.grants_launch (State.resetWith l) n)

/-- After any number of steps of a run, an admitted word is the latest store to it, or `DMEM_INIT`'s (R33). -/
theorem wordVal_runFinal {l : Launch} (hl : l.WellFormed) (hsep : l.params.unifiedMem = false) {a : Nat}
    (ha : admitted l.params a) : ∀ n, (runFinal l n).wordVal a =
      (latestStore l a n).getD (Memory.readWord l.byteOrder l.dmemInit l.params.xlen a).toNat
  | 0 => by
    change (Memory.readWord l.byteOrder l.dmemAtReset l.params.xlen a).toNat = _
    rw [dmemAtReset_separate hsep]
    rfl
  | n + 1 => by
    have ih := wordVal_runFinal hl hsep ha n
    have hinv : (runFinal l n).Inv := State.inv_grants (State.inv_resetWith hl) n
    have ⟨_, hpc, _⟩ := hinv
    have hsucc : runFinal l (n + 1) = (runFinal l n).grant := State.grants_succ n _
    rw [hsucc, latestStore]
    cases hst : (runFinal l n).status with
    | faulted f =>
      rw [State.grant_faulted hst, State.storeOf_faulted hst]
      exact ih
    | running =>
      obtain ⟨t, ht⟩ := exists_step hst hpc
      have hword := stepWritesTheStoredWordAlone _ t hinv ht a (by rw [runFinal_params]; exact ha)
      rw [State.grant_of_step ht, hword, ih]
      cases (runFinal l n).storeOf with
      | none => rfl
      | some store =>
        dsimp only
        split <;> rfl

/-- Settles O17: a read at an admitted address answers the word there. -/
theorem everyReadReturnsTheLatestStore : Obligations.EveryReadReturnsTheLatestStore := by
  intro l n addr hl hsep
  have hadmitted : admitted (runFinal l n).params addr.toNat ↔ admitted l.params addr.toNat :=
    iff_of_eq (congrArg (admitted · _) (runFinal_params l n))
  exact ⟨fun ha => ⟨_, State.memRead_admitted (hadmitted.2 ha), wordVal_runFinal hl hsep ha n⟩,
    fun ha => State.memRead_not_admitted (mt hadmitted.1 ha)⟩

/-- Settles O34: the fetch reads the program, a load data memory, and no step changes the launch. -/
theorem storesAreNeverSeenByFetch : Obligations.StoresAreNeverSeenByFetch := by
  intro s hsep
  refine ⟨fun d => ?_, fun _ _ => rfl, fun t h => congrArg Launch.program (step_launch h)⟩
  rw [State.fetch_separate hsep, State.fetch_separate (s := { s with dmem := d }) hsep]
  rfl

/-- The three answers of a step: a faulted core its fault, a core at an odd pc a refusal, any other a next state. -/
theorem step_answers (s : State) : (∃ f, s.status = .faulted f ∧ step s = .fault f) ∨
    (s.status = .running ∧ s.pc.toNat % 2 = 1 ∧ step s = .refused .oddPc) ∨ ∃ t, step s = .next t := by
  cases hs : s.status with
  | faulted f => exact .inl ⟨f, rfl, step_faulted hs⟩
  | running =>
    rcases Nat.mod_two_eq_zero_or_one s.pc.toNat with hp | hp
    · exact .inr (.inr (exists_step hs hp))
    · exact .inr (.inl ⟨rfl, hp, step_odd hs hp⟩)

/-- A step answers a fault exactly when the core stands in it (R23). -/
theorem step_eq_fault_iff {s : State} {f : Fault} : step s = .fault f ↔ s.status = .faulted f := by
  refine ⟨fun h => ?_, step_faulted⟩
  obtain ⟨g, hs, h'⟩ | ⟨-, -, h'⟩ | ⟨t, h'⟩ := step_answers s <;> cases h.symm.trans h'
  exact hs

/-- A step is refused exactly when a running core is at an odd pc (R14). -/
theorem step_eq_refused_iff {s : State} {r : Refusal} :
    step s = .refused r ↔ s.status = .running ∧ s.pc.toNat % 2 = 1 ∧ r = .oddPc := by
  refine ⟨fun h => ?_, fun ⟨hs, hp, hr⟩ => hr ▸ step_odd hs hp⟩
  obtain ⟨f, -, h'⟩ | ⟨hs, hp, h'⟩ | ⟨t, h'⟩ := step_answers s <;> cases h.symm.trans h'
  exact ⟨hs, hp, rfl⟩

/-- The store `d` in byte order `o` can stand in for the state's own: both are canonical, and hold the same words. -/
structure State.OtherStore (s : State) (o : ByteOrder) (d : Memory) : Prop where
  separate : s.params.unifiedMem = false
  bytes : s.params.xlen % 8 = 0
  wf_own : Memory.wf s.dmem
  wf_other : Memory.wf d
  same : s.SameWords o d

section
variable {s t : State} {o : ByteOrder} {d : Memory}

/-- A state with the same launch and data memory has the same other stores. -/
theorem State.OtherStore.of_eq (h : s.OtherStore o d) (hl : t.launch = s.launch) (hd : t.dmem = s.dmem) :
    t.OtherStore o d := by
  obtain ⟨l, x, pc, m, st⟩ := s
  obtain ⟨l', x', pc', m', st'⟩ := t
  cases hl
  cases hd
  exact ⟨h.separate, h.bytes, h.wf_own, h.wf_other, h.same⟩

/-- Writing one word to both stores, each in its own order, leaves them holding the same words. -/
theorem State.OtherStore.commit_writeWord (h : s.OtherStore o d) {a : Nat} (ha : admitted s.params a) (v : s.Word)
    (x : Vector s.Word 16) (pc : s.PcWord) :
    (s.commit x (Memory.writeWord s.order s.dmem a v) pc).OtherStore o (Memory.writeWord o d a v) where
  separate := h.separate
  bytes := h.bytes
  wf_own := Memory.wf_writeWord h.wf_own a v
  wf_other := Memory.wf_writeWord h.wf_other a v
  same b hb :=
    calc Memory.readWord o (Memory.writeWord o d a v) s.params.xlen b
      _ = if b = a then v else Memory.readWord o d s.params.xlen b :=
        Memory.readWord_writeWord_admitted h.bytes h.wf_other ha hb v
      _ = if b = a then v else Memory.readWord s.order s.dmem s.params.xlen b := by rw [h.same b hb]
      _ = Memory.readWord s.order (Memory.writeWord s.order s.dmem a v) s.params.xlen b :=
        (Memory.readWord_writeWord_admitted h.bytes h.wf_own ha hb v).symm

/-- An instruction does the same over another store: only LW reads memory and only SW writes it, each a whole word. -/
theorem State.OtherStore.exec_withStore {i : Instr} (h : s.OtherStore o d) (hx : exec i s = .next t) :
    ∃ d', exec i (s.withStore o d) = .next (t.withStore o d') ∧ t.OtherStore o d' := by
  cases i with
  | and r1 r2 => cases hx; exact ⟨d, rfl, h.of_eq rfl rfl⟩
  | addi r1 imm => cases hx; exact ⟨d, rfl, h.of_eq rfl rfl⟩
  | ori r1 imm => cases hx; exact ⟨d, rfl, h.of_eq rfl rfl⟩
  | j imm => cases hx; exact ⟨d, rfl, h.of_eq rfl rfl⟩
  | lw r1 r2 =>
    rw [exec, execLw_eq] at hx ⊢
    by_cases ha : admitted s.params (s.reg r2).toNat
    · cases (if_pos ha).symm.trans hx
      refine ⟨d, (if_pos ha).trans ?_, h.of_eq rfl rfl⟩
      exact congrArg (fun v => Host.Outcome.next ((s.writeBack r1 v).withStore o d)) (h.same _ ha)
    · cases (if_neg ha).symm.trans hx
      exact ⟨d, if_neg ha, h.of_eq rfl rfl⟩
  | sw r1 r2 =>
    rw [exec, execSw_eq] at hx ⊢
    by_cases ha : admitted s.params (s.reg r2).toNat
    · cases (if_pos ha).symm.trans hx
      exact ⟨_, if_pos ha, h.commit_writeWord ha _ _ _⟩
    · cases (if_neg ha).symm.trans hx
      exact ⟨d, if_neg ha, h.of_eq rfl rfl⟩

/-- A step does the same over another store: the fetch reads neither. -/
theorem State.OtherStore.step_withStore (h : s.OtherStore o d) (ht : step s = .next t) :
    ∃ d', step (s.withStore o d) = .next (t.withStore o d') ∧ t.OtherStore o d' := by
  have hfd : (s.withStore o d).fetchDecode = s.fetchDecode := fetchDecode_of_sameControl ⟨rfl, rfl, rfl⟩ h.separate
  obtain ⟨hr, hp, ⟨f, hd, rfl⟩ | ⟨i, hd, hx⟩⟩ := step_cases ht
  · exact ⟨d, step_of_error hr hp (hfd.trans hd), h.of_eq rfl rfl⟩
  · rw [step_of_ok (s := s.withStore o d) hr hp (hfd.trans hd)]
    exact h.exec_withStore hx

/-- A granted step does the same over another store. -/
theorem State.OtherStore.grant_withStore (h : s.OtherStore o d) :
    ∃ d', (s.withStore o d).grant = s.grant.withStore o d' ∧ s.grant.OtherStore o d' := by
  cases hs : step s with
  | next t =>
    obtain ⟨d', hd', h'⟩ := h.step_withStore hs
    rw [State.grant_of_step hs, State.grant_of_step hd']
    exact ⟨d', rfl, h'⟩
  | fault f =>
    have hst := step_eq_fault_iff.1 hs
    rw [State.grant_faulted hst, State.grant_faulted (s := s.withStore o d) hst]
    exact ⟨d, rfl, h⟩
  | refused r =>
    obtain ⟨hst, hp, -⟩ := step_eq_refused_iff.1 hs
    rw [State.grant_odd hst hp, State.grant_odd (s := s.withStore o d) hst hp]
    exact ⟨d, rfl, h⟩

/-- Any number of granted steps do the same over another store. -/
theorem State.OtherStore.grants_withStore (h : s.OtherStore o d) : ∀ n,
    ∃ d', (s.withStore o d).grants n = (s.grants n).withStore o d' ∧ (s.grants n).OtherStore o d'
  | 0 => ⟨d, rfl, h⟩
  | n + 1 => by
    obtain ⟨d₁, heq, h₁⟩ := State.OtherStore.grants_withStore h n
    rw [State.grants_succ, State.grants_succ, heq]
    exact h₁.grant_withStore

/-- The host observes the same word at every address of either store. -/
theorem State.OtherStore.observeWord_withStore (h : s.OtherStore o d) (a : Nat) :
    (s.withStore o d).observeWord a = s.observeWord a := by
  by_cases ha : admitted s.params a
  · exact (if_pos ha).trans ((congrArg some (h.same a ha)).trans (if_pos ha).symm)
  · exact (if_neg ha).trans (if_neg ha).symm

end

/-- Settles O36: a step keeps the two stores holding the same words, and neither matters to a fault or a refusal. -/
theorem byteOrderIsNotObservable : Obligations.ByteOrderIsNotObservable := by
  intro s o d hsep hbytes hwf hwf' hsame
  have hother : s.OtherStore o d := ⟨hsep, hbytes, hwf, hwf', hsame⟩
  refine ⟨fun t ht => ?_, fun f hf => ?_, fun r hr => ?_⟩
  · obtain ⟨d', hstep, h'⟩ := hother.step_withStore ht
    exact ⟨d', hstep, h'.wf_other, h'.same⟩
  · have hfaulted : s.status = .faulted f := step_eq_fault_iff.1 hf
    exact step_eq_fault_iff.2 hfaulted
  · have hodd := step_eq_refused_iff.1 hr
    exact step_eq_refused_iff.2 hodd

/-- Settles O42: every granted step keeps the two stores holding the same words, and the host observes words only. -/
theorem runsHideTheByteOrder : Obligations.RunsHideTheByteOrder := by
  intro s o d n hsep hbytes hwf hwf' hsame
  have hother : s.OtherStore o d := ⟨hsep, hbytes, hwf, hwf', hsame⟩
  obtain ⟨d', heq, h'⟩ := hother.grants_withStore n
  refine ⟨d', heq, h'.wf_other, h'.same, fun a => ?_⟩
  rw [heq]
  exact congrArg (Option.map BitVec.toNat) (h'.observeWord_withStore a)

end Sys2Proof.Machine
end

section
/-! SUPPORT. Proofs of the encoding family (spec/30_encoding.md), the words: what the decoder answers and when (R60 to
R63), the encoder as shifts and ORs (R65), and which words are the encoding of what they decode to (R67). -/

namespace Sys2Proof.Machine

/-- Clearing the low `k` bits, as the jump mask does, is division (R110). -/
theorem and_jumpMask_toNat {n : Nat} (k : Nat) (b : BitVec n) :
    (b &&& jumpMask n k).toNat = b.toNat / 2 ^ k * 2 ^ k := by
  apply Nat.eq_of_testBit_eq
  intro i
  rw [Nat.testBit_mul_two_pow, Nat.testBit_div_two_pow, BitVec.testBit_toNat, BitVec.testBit_toNat, jumpMask,
    BitVec.getLsbD_and, BitVec.getLsbD_not, BitVec.getLsbD_ofNat, Nat.testBit_two_pow_sub_one]
  by_cases hk : k ≤ i
  · have hlow : ¬ i < k := by omega
    have hin : b.getLsbD i = true → i < n := BitVec.lt_of_getLsbD
    rw [Nat.sub_add_cancel hk]
    simpa [hk, hlow] using hin
  · have hlow : i < k := by omega
    simp [hk, hlow]

end Sys2Proof.Machine

namespace Sys2Proof

/-- Settles O25: the decoder takes the encoded instruction's own arm, whose fields are read back. -/
theorem decodeOfEncode : Obligations.DecodeOfEncode := fun _ _ => decode_encode

/-- Settles O30: the jump immediate is built with bit 0 clear, and no other field has anything to check. -/
theorem decodedInstructionsAreWellFormed : Obligations.DecodedInstructionsAreWellFormed :=
  fun _ _ _ => wellFormed_of_decode

/-- The arms of the decoder, each with what its word has (R60, R62). -/
inductive DecodeCase (p : Params) (w : InstrWord) : Except DecodeError Instr → Prop where
  | and (hop : opcodeField w = p.opcodes.alu) (hfunc : funcCode p w = 1) :
      DecodeCase p w (.ok (.and (r1Field w) (r2Field w)))
  | illegalFunction (hop : opcodeField w = p.opcodes.alu) (hfunc : funcCode p w ≠ 1) :
      DecodeCase p w (.error (.illegalFunction w))
  | addi (hop : opcodeField w = p.opcodes.addi) : DecodeCase p w (.ok (.addi (r1Field w) (imm8Field w)))
  | ori (hop : opcodeField w = p.opcodes.ori) : DecodeCase p w (.ok (.ori (r1Field w) (imm8Field w)))
  | lw (hop : opcodeField w = p.opcodes.lw) : DecodeCase p w (.ok (.lw (r1Field w) (r2Field w)))
  | sw (hop : opcodeField w = p.opcodes.sw) : DecodeCase p w (.ok (.sw (r1Field w) (r2Field w)))
  | j (hop : opcodeField w = p.opcodes.j) : DecodeCase p w (.ok (.j (jimmOf (jField w))))
  | illegalOpcode (hop : opcodeField w ∉
      [p.opcodes.alu, p.opcodes.addi, p.opcodes.ori, p.opcodes.lw, p.opcodes.sw, p.opcodes.j]) :
      DecodeCase p w (.error (.illegalOpcode w))

section
variable {p : Params} {w : InstrWord}

/-- The decoder's answer is that of one of its arms. -/
theorem decode_cases {d : Except DecodeError Instr} (h : decode p w = d) : DecodeCase p w d := by
  subst h
  unfold decode
  split_ifs with halu hfunc haddi hori hlw hsw hj
  · exact .and halu hfunc
  · exact .illegalFunction halu hfunc
  · exact .addi haddi
  · exact .ori hori
  · exact .lw hlw
  · exact .sw hsw
  · exact .j hj
  · exact .illegalOpcode (by simp [*])

/-- The decoder on a word of the ALU opcode (R60). -/
theorem decode_alu (h : opcodeField w = p.opcodes.alu) : decode p w =
    if funcCode p w = 1 then .ok (.and (r1Field w) (r2Field w)) else .error (.illegalFunction w) := if_pos h

/-- The decoder reads a function code from words of the ALU opcode alone. -/
theorem decode_aluFuncBits (h : opcodeField w ≠ p.opcodes.alu) (n : Nat) :
    decode { p with aluFuncBits := n } w = decode p w :=
  (if_neg h).trans (if_neg h).symm

/-- The decoder on a word of LW's opcode (R60). -/
theorem decode_lw (hp : p.opcodes.WellFormed) (h : opcodeField w = p.opcodes.lw) :
    decode p w = .ok (.lw (r1Field w) (r2Field w)) := by
  obtain ⟨-, hnodup⟩ := hp
  simp only [List.nodup_cons, List.mem_cons, List.not_mem_nil, or_false, not_or] at hnodup
  obtain ⟨⟨_, _, halu, _, _⟩, ⟨_, haddi, _, _⟩, ⟨hori, _, _⟩, -⟩ := hnodup
  rw [decode, h, if_neg (Ne.symm halu), if_neg (Ne.symm haddi), if_neg (Ne.symm hori), if_pos rfl]

/-- The decoder on a word of SW's opcode (R60). -/
theorem decode_sw (hp : p.opcodes.WellFormed) (h : opcodeField w = p.opcodes.sw) :
    decode p w = .ok (.sw (r1Field w) (r2Field w)) := by
  obtain ⟨-, hnodup⟩ := hp
  simp only [List.nodup_cons, List.mem_cons, List.not_mem_nil, or_false, not_or] at hnodup
  obtain ⟨⟨_, _, _, halu, _⟩, ⟨_, _, haddi, _⟩, ⟨_, hori, _⟩, ⟨hlw, _⟩, -⟩ := hnodup
  rw [decode, h, if_neg (Ne.symm halu), if_neg (Ne.symm haddi), if_neg (Ne.symm hori), if_neg (Ne.symm hlw), if_pos rfl]

/-- The decoder refuses an opcode exactly if it is none of the six (R62). -/
theorem decode_illegalOpcode_iff : decode p w = .error (.illegalOpcode w) ↔
    opcodeField w ∉ [p.opcodes.alu, p.opcodes.addi, p.opcodes.ori, p.opcodes.lw, p.opcodes.sw, p.opcodes.j] := by
  constructor
  · intro h
    cases decode_cases h with
    | illegalOpcode hop => exact hop
  · intro hop
    simp only [List.mem_cons, List.not_mem_nil, or_false, not_or] at hop
    obtain ⟨halu, haddi, hori, hlw, hsw, hj⟩ := hop
    rw [decode, if_neg halu, if_neg haddi, if_neg hori, if_neg hlw, if_neg hsw, if_neg hj]

/-- The decoder refuses a function code exactly if it is not AND's, in a word of the ALU opcode (R62). -/
theorem decode_illegalFunction_iff : decode p w = .error (.illegalFunction w) ↔
    opcodeField w = p.opcodes.alu ∧ funcCode p w ≠ 1 := by
  constructor
  · intro h
    cases decode_cases h with
    | illegalFunction hop hfunc => exact ⟨hop, hfunc⟩
  · rintro ⟨hop, hfunc⟩
    rw [decode_alu hop, if_neg hfunc]

/-- The decoder's errors carry the word. -/
theorem decode_error {e : DecodeError} (h : decode p w = .error e) :
    e = .illegalOpcode w ∨ e = .illegalFunction w := by
  cases decode_cases h with
  | illegalOpcode _ => exact .inl rfl
  | illegalFunction _ _ => exact .inr rfl

/-- A word is illegal exactly by its opcode or by its function code (R62). -/
theorem exists_decode_error_iff : (∃ e, decode p w = .error e) ↔
    opcodeField w ∉ [p.opcodes.alu, p.opcodes.addi, p.opcodes.ori, p.opcodes.lw, p.opcodes.sw, p.opcodes.j] ∨
      (opcodeField w = p.opcodes.alu ∧ funcCode p w ≠ 1) := by
  rw [← decode_illegalOpcode_iff, ← decode_illegalFunction_iff]
  constructor
  · rintro ⟨e, he⟩
    obtain rfl | rfl := decode_error he
    · exact .inl he
    · exact .inr he
  · rintro (h | h)
    · exact ⟨_, h⟩
    · exact ⟨_, h⟩

/-- The opcode of a word as the quotient of its value. -/
theorem opcodeField_eq_iff {op : BitVec 4} : opcodeField w = op ↔ w.toNat / 4096 = op.toNat := by
  rw [← BitVec.toNat_inj, opcodeField_toNat]

/-- Settles O24: at the defaults the defined opcodes are 1 to 6, and the function code is the last digit. -/
theorem illegalWords : Obligations.IllegalWords := by
  refine ⟨fun p w _ => ⟨decode_illegalOpcode_iff, decode_illegalFunction_iff, fun _ => decode_error⟩, fun w => ?_⟩
  have hfunc : funcCode Params.specDefault w = w.toNat % 16 := rfl
  rw [exists_decode_error_iff, hfunc]
  simp only [List.mem_cons, List.not_mem_nil, or_false, opcodeField_eq_iff, Params.specDefault, Opcodes.specDefault,
    BitVec.ofNat_eq_ofNat, BitVec.reduceToNat]
  omega

/-- Band U1 on the word's value: 1 in the low two bits, but not in the low four (conflict C1). -/
theorem bandU1_iff {o : Opcodes} :
    Machine.bandU1 o w ↔ opcodeField w = o.alu ∧ w.toNat % 4 = 1 ∧ w.toNat % 16 ≠ 1 := by
  have hlow : (w.extractLsb' 0 2).toNat = w.toNat % 4 := by simp [BitVec.extractLsb'_toNat]
  have hhigh : (w.extractLsb' 2 2).toNat = w.toNat / 4 % 4 := by
    simp [BitVec.extractLsb'_toNat, Nat.shiftRight_eq_div_pow]
  rw [Machine.bandU1, ne_eq, ← BitVec.toNat_inj (x := w.extractLsb' 0 2),
    ← BitVec.toNat_inj (x := w.extractLsb' 2 2), hlow, hhigh]
  change _ ∧ w.toNat % 4 = 1 ∧ ¬ w.toNat / 4 % 4 = 0 ↔ _
  refine and_congr_right fun _ => and_congr_right fun _ => ?_
  omega

/-- Settles O29: only a word of the ALU opcode has a function code, and only in band U1 is it 1 at one width and not
at the other. -/
theorem functionWidthsAgreeOutsideBandU1 : Obligations.FunctionWidthsAgreeOutsideBandU1 := by
  intro p w _
  rw [bandU1_iff]
  by_cases hop : opcodeField w = p.opcodes.alu
  · rw [decode_alu (p := { p with aluFuncBits := 4 }) hop, decode_alu (p := { p with aluFuncBits := 2 }) hop,
      and_iff_right hop]
    change (if w.toNat % 16 = 1 then _ else _) = (if w.toNat % 4 = 1 then _ else _) ↔ _
    by_cases h16 : w.toNat % 16 = 1
    · have h4 : w.toNat % 4 = 1 := by omega
      simp [h16, h4]
    · by_cases h4 : w.toNat % 4 = 1
      · simp [h16, h4]
      · simp [h16, h4]
  · exact iff_of_true ((decode_aluFuncBits hop 4).trans (decode_aluFuncBits hop 2).symm) fun h => hop h.1

/-- Masking off bits 3:0 is division. -/
theorem and_0xFFF0_toNat (w : InstrWord) : (w &&& 0xFFF0#16).toNat = w.toNat / 16 * 16 :=
  Machine.and_jumpMask_toNat 4 w

end

/-! A word is the encoding of its own fields, with the function code or the unused bits put in. -/

section
variable (w : InstrWord)

theorem formatR_fields (h : w.toNat % 16 = 1) : formatR (opcodeField w) (r1Field w) (r2Field w) = w := by
  apply BitVec.eq_of_toNat_eq
  rw [formatR_toNat, opcodeField_toNat, r1Field_val, r2Field_val]
  omega

theorem formatM_fields : formatM (opcodeField w) (r1Field w) (r2Field w) = w &&& 0xFFF0#16 := by
  apply BitVec.eq_of_toNat_eq
  rw [formatM_toNat, opcodeField_toNat, r1Field_val, r2Field_val, and_0xFFF0_toNat]
  omega

theorem formatI_fields : formatI (opcodeField w) (r1Field w) (imm8Field w) = w := by
  apply BitVec.eq_of_toNat_eq
  rw [formatI_toNat, opcodeField_toNat, r1Field_val, imm8Field_toNat]
  omega

theorem formatJ_fields : formatJ (opcodeField w) (jimmOf (jField w)) = w := by
  apply BitVec.eq_of_toNat_eq
  rw [formatJ_toNat, opcodeField_toNat, jimmOf_toNat, jField_toNat]
  omega

end

/-- Bits 3:0 are clear exactly if masking them off changes nothing. -/
theorem and_0xFFF0_eq_self_iff {w : InstrWord} : w &&& 0xFFF0#16 = w ↔ w.extractLsb' 0 4 = 0#4 := by
  rw [← BitVec.toNat_inj, and_0xFFF0_toNat, ← BitVec.toNat_inj, BitVec.extractLsb'_toNat, Nat.shiftRight_zero,
    BitVec.toNat_ofNat]
  omega

/-- Settles O26: the decoder's arms other than LW's and SW's read the whole word; those two leave bits 3:0 unread. -/
theorem encodeOfDecode : Obligations.EncodeOfDecode := by
  intro p w i ⟨_, _, _, hopcodes, _⟩ hbits h
  refine ⟨fun hlw hsw => ?_, fun hmem => ?_⟩
  · cases decode_cases h with
    | and hop hfunc =>
      rw [funcCode, hbits] at hfunc
      rw [encode, ← hop, formatR_fields w hfunc]
    | addi hop => rw [encode, ← hop, formatI_fields]
    | ori hop => rw [encode, ← hop, formatI_fields]
    | lw hop => exact absurd hop hlw
    | sw hop => exact absurd hop hsw
    | j hop => rw [encode, ← hop, formatJ_fields]
  · have hmask : encode p i = w &&& 0xFFF0#16 := by
      obtain hop | hop := hmem
      · cases h.symm.trans (decode_lw hopcodes hop)
        rw [encode, ← hop, formatM_fields]
      · cases h.symm.trans (decode_sw hopcodes hop)
        rw [encode, ← hop, formatM_fields]
    exact ⟨hmask, by rw [hmask, and_0xFFF0_eq_self_iff]⟩

/-- Two words that agree above bits 3:0 have the same opcode and registers. -/
theorem fields_eq_of_and_0xFFF0_eq {v w : InstrWord} (h : v &&& 0xFFF0#16 = w &&& 0xFFF0#16) :
    opcodeField v = opcodeField w ∧ r1Field v = r1Field w ∧ r2Field v = r2Field w := by
  have hdiv : v.toNat / 16 * 16 = w.toNat / 16 * 16 := by rw [← and_0xFFF0_toNat, h, and_0xFFF0_toNat]
  refine ⟨BitVec.eq_of_toNat_eq ?_, Fin.ext ?_, Fin.ext ?_⟩
  · rw [opcodeField_toNat, opcodeField_toNat]
    omega
  · rw [r1Field_val, r1Field_val]
    omega
  · rw [r2Field_val, r2Field_val]
    omega

/-- Settles O28: LW and SW read nothing of bits 3:0, band U1 is where the two function codes differ, and ADDI, ORI and
J read every bit of the word. -/
theorem nonCanonicalWords : Obligations.NonCanonicalWords := by
  intro p w ⟨_, _, _, hop, _⟩
  refine ⟨fun v hmem hagree => ?_, fun hband => ?_, ?_⟩
  · obtain ⟨hopv, h1, h2⟩ := fields_eq_of_and_0xFFF0_eq hagree
    obtain h | h := hmem
    · rw [decode_lw hop h, decode_lw hop (hopv.trans h), h1, h2]
    · rw [decode_sw hop h, decode_sw hop (hopv.trans h), h1, h2]
  · obtain ⟨halu, h4, h16⟩ := bandU1_iff.1 hband
    rw [decode_alu halu, funcCode]
    exact ⟨fun hbits => by rw [hbits]; exact if_neg h16, fun hbits => by rw [hbits]; exact if_pos h4⟩
  · rintro (h | h | h)
    · exact ⟨.addi (r1Field w) (imm8Field w), rfl, by rw [encode, ← h, formatI_fields]⟩
    · exact ⟨.ori (r1Field w) (imm8Field w), rfl, by rw [encode, ← h, formatI_fields]⟩
    · exact ⟨.j (jimmOf (jField w)), wellFormed_j_jimmOf _, by rw [encode, ← h, formatJ_fields]⟩

/-- The jump field is the immediate shifted right by 1 (R57). -/
theorem setWidth_extractLsb'_one (imm : BitVec 13) : (imm.extractLsb' 1 12).setWidth 16 = (imm >>> 1).setWidth 16 := by
  apply BitVec.eq_of_toNat_eq
  simp only [BitVec.toNat_setWidth, BitVec.extractLsb'_toNat, BitVec.toNat_ushiftRight, Nat.shiftRight_eq_div_pow]
  omega

/-! The formats as the rule writes them: concatenation is OR of the fields shifted into place (R65). -/

theorem formatR_eq_or (op : BitVec 4) (r1 r2 : RegIndex) : formatR op r1 r2 =
    op.setWidth 16 <<< 12 ||| (regBits r1).setWidth 16 <<< 8 ||| (regBits r2).setWidth 16 <<< 4 ||| 1#16 :=
  (BitVec.setWidth_eq _).symm.trans BitVec.setWidth_append_append_append_eq_shiftLeft_setWidth_or

theorem formatM_eq_or (op : BitVec 4) (r1 r2 : RegIndex) : formatM op r1 r2 =
    op.setWidth 16 <<< 12 ||| (regBits r1).setWidth 16 <<< 8 ||| (regBits r2).setWidth 16 <<< 4 := by
  have h := BitVec.setWidth_append_append_append_eq_shiftLeft_setWidth_or (w'''' := 16) (b := op) (b' := regBits r1)
    (b'' := regBits r2) (b''' := 0#4)
  rwa [BitVec.setWidth_eq, BitVec.setWidth_zero, BitVec.or_zero] at h

theorem formatI_eq_or (op : BitVec 4) (r1 : RegIndex) (imm : BitVec 8) : formatI op r1 imm =
    op.setWidth 16 <<< 12 ||| (regBits r1).setWidth 16 <<< 8 ||| imm.setWidth 16 :=
  (BitVec.setWidth_eq _).symm.trans BitVec.setWidth_append_append_eq_shiftLeft_setWidth_or

theorem formatJ_eq_or (op : BitVec 4) (imm : BitVec 13) :
    formatJ op imm = op.setWidth 16 <<< 12 ||| (imm >>> 1).setWidth 16 := by
  rw [← setWidth_extractLsb'_one]
  exact (BitVec.setWidth_eq _).symm.trans BitVec.setWidth_append_eq_shiftLeft_setWidth_or

/-- Settles O27: concatenation is OR of shifted fields. -/
theorem encoderIsTheRule : Obligations.EncoderIsTheRule :=
  fun _ => ⟨formatR_eq_or _, formatI_eq_or _, formatI_eq_or _, formatM_eq_or _, formatM_eq_or _, formatJ_eq_or _⟩

end Sys2Proof
end

section
/-! SUPPORT. Proofs of the encoding family, the jump: its target as a number, and which steps idle (spec/42_jump.md
R110, R111). -/

namespace Sys2Proof.Machine

/-- The pc that J gives, as a number: the low bits of the advanced pc cleared, the immediate OR-ed in (R110). -/
theorem State.jumpTarget_toNat {s : State} (hn : 13 ≤ s.params.pclen) (k : Nat) (imm : BitVec 13) :
    (jumpTarget k s.pcPlus2 imm).toNat = (s.pcVal + 2) % 2 ^ s.params.pclen / 2 ^ k * 2 ^ k ||| imm.toNat := by
  have himm : (imm.setWidth s.params.pclen).toNat = imm.toNat := BitVec.toNat_setWidth_of_le hn
  rw [jumpTarget, BitVec.toNat_or, and_jumpMask_toNat, State.pcPlus2_toNat, himm]

/-- J idles exactly if it jumps to its own address, since it changes nothing but the pc. -/
theorem exec_j_eq_self_iff {s : State} {imm : BitVec 13} :
    exec (.j imm) s = .next s ↔ (jumpTarget s.params.jReplaceBits s.pcPlus2 imm).toNat = s.pcVal := by
  constructor
  · intro h
    injection h with h
    exact congrArg State.pcVal h
  · intro h
    have hpc : jumpTarget s.params.jReplaceBits s.pcPlus2 imm = s.pc := BitVec.eq_of_toNat_eq h
    rw [exec, execJ, hpc]
    rfl

/-- OR-ing a number with its own high bits gives it back. -/
theorem div_mul_two_pow_or_self (k m : Nat) : m / 2 ^ k * 2 ^ k ||| m = m := by
  apply Nat.eq_of_testBit_eq
  intro i
  rw [Nat.testBit_or, Nat.testBit_mul_two_pow, Nat.testBit_div_two_pow]
  by_cases hk : k ≤ i
  · simp [hk]
  · simp [hk]

/-- The high bits of an advanced even pc lie among the bits of the pc exactly if advancing does not leave its
512-byte region. -/
theorem advanced_or_self_iff {m : Nat} (h : m % 2 = 0) : (m + 2) / 2 ^ 9 * 2 ^ 9 ||| m = m ↔ m % 0x200 ≠ 0x1FE := by
  by_cases hlast : m % 0x200 = 0x1FE
  · have hle : (m + 2) / 2 ^ 9 * 2 ^ 9 ≤ (m + 2) / 2 ^ 9 * 2 ^ 9 ||| m := Nat.left_le_or
    omega
  · have hregion : (m + 2) / 2 ^ 9 = m / 2 ^ 9 := by omega
    rw [hregion]
    exact iff_of_true (div_mul_two_pow_or_self 9 m) hlast

/-- An advanced pc differs from the pc. -/
theorem State.pcPlus2_ne {s : State} (hn : 13 ≤ s.params.pclen) : s.pcPlus2.toNat ≠ s.pcVal := by
  have hlt : s.pcVal < 2 ^ s.params.pclen := s.pc.isLt
  have hbound : 2 ^ 13 ≤ 2 ^ s.params.pclen := Nat.pow_le_pow_right (by decide) hn
  rw [State.pcPlus2_toNat]
  intro h
  rcases Nat.lt_or_ge (s.pcVal + 2) (2 ^ s.params.pclen) with hnowrap | hwrap
  · rw [Nat.mod_eq_of_lt hnowrap] at h
    omega
  · rw [Nat.mod_eq_sub_mod hwrap, Nat.mod_eq_of_lt (by omega)] at h
    omega

/-- Of a running core's instructions only J can leave the state as it is: the others advance the pc or raise. -/
theorem ExecCase.idle {i : Instr} {s t : State} (h : ExecCase i s t) (hn : 13 ≤ s.params.pclen)
    (hr : s.status = .running) (heq : t = s) : ∃ imm, i = .j imm := by
  cases h with
  | wrote r v => exact absurd (congrArg State.pcVal heq) (State.pcPlus2_ne hn)
  | stored r1 r2 _ _ => exact absurd (congrArg State.pcVal heq) (State.pcPlus2_ne hn)
  | jumped imm hi => exact ⟨imm, hi⟩
  | raised r2 k _ => cases (congrArg State.status heq).trans hr

/-- A step that leaves the state as it is has decoded a J. -/
theorem fetchDecode_of_idle {s : State} (hn : 13 ≤ s.params.pclen) (h : step s = .next s) :
    ∃ imm, s.fetchDecode = .ok (.j imm) := by
  obtain ⟨hr, -, ⟨f, -, hraise⟩ | ⟨i, hd, hx⟩⟩ := step_cases h
  · cases hr.symm.trans (congrArg State.status hraise)
  · obtain ⟨imm, rfl⟩ := (execCase_of_exec hx).idle hn hr rfl
    exact ⟨imm, hd⟩

/-- Settles O14: the target of a self-jump at `m` is the region of `m + 2` with the bits of `m`. -/
theorem selfJumpIsTheOnlyIdling : Obligations.SelfJumpIsTheOnlyIdling := by
  refine ⟨fun k s hn hj hpc => ?_, fun s hn hpc => ?_, fun _ => fetchDecode_of_idle⟩
  · have hk := k.isLt
    have hbound : 2 ^ 14 ≤ 2 ^ s.params.pclen := Nat.pow_le_pow_right (by decide) hn
    have hnowrap : (2 * k.toNat + 2) % 2 ^ s.params.pclen = 2 * k.toNat + 2 := Nat.mod_eq_of_lt (by omega)
    rw [exec_j_eq_self_iff, State.jumpTarget_toNat (by omega), hj, hpc, hnowrap, jimmOf_toNat]
    exact advanced_or_self_iff (Nat.mul_mod_right 2 _)
  · have hbound : 2 ^ 13 ≤ 2 ^ s.params.pclen := Nat.pow_le_pow_right (by decide) hn
    have hnowrap : (0x1FE + 2) % 2 ^ s.params.pclen = 0x200 := Nat.mod_eq_of_lt (by omega)
    have htarget (k : Nat) : (jumpTarget k s.pcPlus2 0x1FE#13).toNat = 0x200 / 2 ^ k * 2 ^ k ||| 0x1FE := by
      rw [State.jumpTarget_toNat hn, hpc, hnowrap]
      rfl
    refine ⟨fun hj => ⟨_, rfl, ?_⟩, fun hj => ?_⟩
    · exact (htarget _).trans (by rw [hj]; rfl)
    · rw [exec_j_eq_self_iff, htarget, hj, hpc]
      rfl

end Sys2Proof.Machine
end

section
/-! SUPPORT. Proofs of the encoding family, the assembler's side (spec/30_encoding.md R78 to R84): what a line can parse
to, the register tokens of AND, and the image of a program. -/

namespace Sys2Proof.Machine

/-- A computation in two parts succeeds exactly if both do. -/
theorem bind_eq_ok_iff {ε α β : Type} {x : Except ε α} {f : α → Except ε β} {b : β} :
    (x >>= f) = .ok b ↔ ∃ a, x = .ok a ∧ f a = .ok b := by
  cases x with
  | ok a => simp [bind, Except.bind]
  | error e => simp [bind, Except.bind]

/-- A structural match is an instruction exactly if its operands convert. -/
theorem lineOf_eq_machine_iff {e : Except ParseError Instr} {i : Instr} : lineOf e = .machine i ↔ e = .ok i := by
  cases e with
  | ok j => simp [lineOf]
  | error err => simp [lineOf]

section
variable {head text : Line} {i : Instr}

/-- A two-register pattern gives an instruction of its own form. -/
theorem wellFormed_of_matchTwoRegisters {make : RegIndex → RegIndex → Instr}
    (hmake : ∀ r1 r2, (make r1 r2).wellFormed = true) (h : matchTwoRegisters head make text = some (.machine i)) :
    i.wellFormed = true := by
  simp only [matchTwoRegisters, Option.bind_eq_bind, Option.bind_eq_some_iff, Option.ite_none_right_eq_some,
    Option.some_inj, lineOf_eq_machine_iff, bind_eq_ok_iff] at h
  obtain ⟨_, -, _, -, _, -, _, -, -, r1, -, r2, -, h⟩ := h
  cases h
  exact hmake r1 r2

/-- A register and immediate pattern gives an instruction of its own form. -/
theorem wellFormed_of_matchRegisterImmediate {make : RegIndex → BitVec 8 → Instr}
    (hmake : ∀ r imm, (make r imm).wellFormed = true)
    (h : matchRegisterImmediate head make text = some (.machine i)) : i.wellFormed = true := by
  simp only [matchRegisterImmediate, Option.bind_eq_bind, Option.bind_eq_some_iff, Option.pure_def,
    Option.some_inj, lineOf_eq_machine_iff, bind_eq_ok_iff] at h
  obtain ⟨_, -, _, -, _, -, _, -, r, -, imm, -, h⟩ := h
  cases h
  exact hmake r imm

/-- The jump pattern gives a J whose immediate is a word address shifted left by 1 (R82). -/
theorem wellFormed_of_matchJump (h : matchJump text = some (.machine i)) : i.wellFormed = true := by
  simp only [matchJump, Option.bind_eq_bind, Option.bind_eq_some_iff, Option.pure_def, Option.some_inj,
    lineOf_eq_machine_iff, bind_eq_ok_iff] at h
  obtain ⟨_, -, _, -, f, -, h⟩ := h
  cases h
  exact wellFormed_j_jimmOf f

/-- A directive is no instruction. -/
theorem matchAsciiz_ne_machine : matchAsciiz text ≠ some (.machine i) := by
  intro h
  simp only [matchAsciiz, Option.bind_eq_bind, Option.bind_eq_some_iff, Option.ite_none_right_eq_some,
    Option.some_inj] at h
  obtain ⟨_, -, -, h⟩ := h
  cases h

end

/-- Settles O39: the first pattern that matches made the instruction, and only J's immediate has anything to check. -/
theorem parsedInstructionsAreWellFormed : Obligations.ParsedInstructionsAreWellFormed := by
  intro line i h
  unfold parseLine at h
  dsimp only at h
  generalize hfirst : List.findSome? id _ = first at h
  cases first with
  | none => cases h
  | some r =>
    obtain rfl : r = .machine i := h
    obtain ⟨pattern, hmem, rfl⟩ := List.exists_of_findSome?_eq_some hfirst
    simp only [List.mem_cons, List.not_mem_nil, or_false] at hmem
    obtain hm | hm | hm | hm | hm | hm | hm := hmem
    · exact absurd hm.symm matchAsciiz_ne_machine
    · exact wellFormed_of_matchTwoRegisters (fun _ _ => rfl) hm.symm
    · exact wellFormed_of_matchRegisterImmediate (fun _ _ => rfl) hm.symm
    · exact wellFormed_of_matchTwoRegisters (fun _ _ => rfl) hm.symm
    · exact wellFormed_of_matchTwoRegisters (fun _ _ => rfl) hm.symm
    · exact wellFormed_of_matchJump hm.symm
    · exact wellFormed_of_matchRegisterImmediate (fun _ _ => rfl) hm.symm

/-- A line that no directive matches and whose text AND's pattern does is that match: the first match wins (R78). -/
theorem parseLine_of_matchAnd {line : Line} {r : SourceInstr} (hdirective : matchAsciiz (stripComment line) = none)
    (hand : matchTwoRegisters ['A', 'N', 'D', ' '] .and (stripComment line) = some r) : parseLine line = r := by
  simp [parseLine, hdirective, hand]

/-- The space of a separator is dropped, and nothing of the token after it. -/
theorem dropSeparator_token {b : Line} (hb : b ≠ []) (htoken : ∀ c ∈ b, isTokenChar c = true) :
    dropSeparator ([',', ' '] ++ b) = some b := by
  cases b with
  | nil => exact absurd rfl hb
  | cons c cs =>
    have hspace : c ≠ ' ' := by
      rintro rfl
      exact absurd (htoken _ List.mem_cons_self) (by decide)
    simp [dropSeparator, hspace]

/-- Two tokens, separated by a comma and a space, match a two-register pattern after its mnemonic. -/
theorem matchTwoRegisters_tokens (head : Line) (make : RegIndex → RegIndex → Instr) {a b : Line} (ha : a ≠ [])
    (hb : b ≠ []) (htoken : ∀ c ∈ a ++ b, isTokenChar c = true) :
    matchTwoRegisters head make (head ++ a ++ [',', ' '] ++ b) =
      some (lineOf (do return make (← registerOf a) (← registerOf b))) := by
  have hhead : head.isPrefixOf? (head ++ a ++ [',', ' '] ++ b) = some (a ++ [',', ' '] ++ b) := by
    simp [List.isPrefixOf?_eq_some_iff_append_eq]
  have hfirst : takeRegister (a ++ [',', ' '] ++ b) = some (a, [',', ' '] ++ b) := by
    rw [List.append_assoc]
    exact takeRegister_append ha (fun c hc => htoken c (List.mem_append_left b hc)) rfl rfl
  have hsep : dropSeparator ([',', ' '] ++ b) = some b :=
    dropSeparator_token hb fun c hc => htoken c (List.mem_append_right a hc)
  have hsecond : takeRegister b = some (b, []) := by
    have h := takeRegister_append (rest := []) hb (fun c hc => htoken c (List.mem_append_right a hc)) rfl rfl
    rwa [List.append_nil] at h
  simp only [matchTwoRegisters, hhead, hfirst, hsep, hsecond, Option.bind_eq_bind, Option.bind_some]
  rfl

/-- A text without a dash, AND and two tokens, is parsed by converting them. -/
theorem parseLine_and_tokens {a b : Line} (ha : a ≠ []) (hb : b ≠ [])
    (htoken : ∀ c ∈ a ++ b, isTokenChar c = true ∧ c ≠ '-') :
    parseLine (['A', 'N', 'D', ' '] ++ a ++ [',', ' '] ++ b) =
      lineOf (do return .and (← registerOf a) (← registerOf b)) := by
  have hstrip : stripComment (['A', 'N', 'D', ' '] ++ a ++ [',', ' '] ++ b) =
      ['A', 'N', 'D', ' '] ++ a ++ [',', ' '] ++ b := by
    apply stripComment_of_no_dash
    intro hdash
    have hmem : '-' ∈ a ++ b := by simpa using hdash
    exact (htoken _ hmem).2 rfl
  apply parseLine_of_matchAnd
  · rw [hstrip]
    rfl
  · rw [hstrip]
    exact matchTwoRegisters_tokens _ _ ha hb fun c hc => (htoken c hc).1

/-- Settles O46: both tokens are extracted before the left one, then the right one, is converted. -/
theorem badRegisterTokensAreNamed : Obligations.BadRegisterTokensAreNamed := by
  intro a b ha hb htoken
  rw [parseLine_and_tokens ha hb htoken]
  refine ⟨fun i j hi hj => ?_, fun hi => ?_, fun i hi hj => ?_⟩
  · rw [registerOf_number hi, registerOf_number hj]
    rfl
  · rw [registerOf_invalid hi]
    rfl
  · rw [registerOf_number hi, registerOf_invalid hj]
    rfl

/-- A traversal in which every element succeeds. -/
theorem mapM_eq_ok {ε α β : Type} {f : α → Except ε β} {g : α → β} :
    ∀ {l : List α}, (∀ a ∈ l, f a = .ok (g a)) → l.mapM f = .ok (l.map g)
  | [], _ => rfl
  | a :: l, h => by
    rw [List.mapM_cons, h a List.mem_cons_self, mapM_eq_ok fun b hb => h b (List.mem_cons_of_mem a hb)]
    rfl

/-- The image of lines that all emit is the words they emit, in order (R84). -/
theorem imageWords_of_emitLine {p : Params} {lines : List SourceLine} {ess : List (List Emitted)}
    (h : lines.mapM (emitLine p) = .ok ess) : imageWords p lines = .ok (ess.flatten.map Emitted.value) := by
  rw [imageWords, emitted, h]
  rfl

/-- Instructions emit their encodings. -/
theorem imageWords_machine (p : Params) (number : Nat) (text : Line) (is : List Instr) :
    imageWords p (is.map fun i => ⟨number, text, .machine i⟩) = .ok (is.map (encode p)) := by
  rw [imageWords_of_emitLine (ess := is.map fun i => [⟨encode p i, text⟩])]
  · rw [← List.flatMap_def, List.map_flatMap]
    exact congrArg Except.ok List.map_eq_flatMap.symm
  · rw [List.mapM_map]
    exact mapM_eq_ok fun i _ => rfl

/-- A character of 8 bits emits its code. -/
theorem emitCharacter_of_lt {c : Char} (h : c.toNat < 256) :
    emitCharacter c = .ok ⟨BitVec.ofNat 16 c.toNat, characterEcho c⟩ := by
  rw [emitCharacter, characterWord, if_pos h]
  rfl

/-- A directive of such characters emits one word for each, and the terminator. -/
theorem emitLine_asciiz (p : Params) (number : Nat) (text : Line) {value : Line} (h : ∀ c ∈ value, c.toNat < 256) :
    emitLine p ⟨number, text, .asciiz value⟩ =
      .ok (value.map (fun c => ⟨BitVec.ofNat 16 c.toNat, characterEcho c⟩) ++ [terminator]) := by
  have hvalue : value.mapM emitCharacter = .ok (value.map _) := mapM_eq_ok fun c hc => emitCharacter_of_lt (h c hc)
  simp only [emitLine, hvalue]
  rfl

/-- The image of one directive (R84). -/
theorem imageWords_asciiz (p : Params) (number : Nat) (text : Line) {value : Line}
    (h : ∀ c ∈ value, c.toNat < 256) : imageWords p [⟨number, text, .asciiz value⟩] =
      .ok (value.map (fun c => BitVec.ofNat 16 c.toNat) ++ [0#16]) := by
  rw [imageWords_of_emitLine (ess := [_])]
  rotate_left
  · rw [List.mapM_cons, emitLine_asciiz p number text h]
    rfl
  · simp [terminator]

/-- The image line of a word at an address of 16 bits. -/
def imageLineText (address : Nat) (value : InstrWord) : Line :=
  hexDigits (BitVec.ofNat 16 address) ++ [' ', ':', ' '] ++ hexDigits value ++ [';']

theorem imageLine_of_lt {address : Nat} (h : address < 2 ^ 16) (value : InstrWord) :
    imageLine address value = .ok (imageLineText address value) := if_pos h

/-- Words at addresses of 16 bits have one image line each, at addresses counting up (R84). -/
theorem imageLinesFrom_eq_ok : ∀ (address : Nat) (ws : List InstrWord), address + ws.length ≤ 2 ^ 16 →
    imageLinesFrom address ws = .ok (ws.mapIdx fun k w => imageLineText (address + k) w)
  | _, [], _ => rfl
  | address, w :: ws, h => by
    rw [List.length_cons] at h
    rw [imageLinesFrom, imageLine_of_lt (by omega), imageLinesFrom_eq_ok (address + 1) ws (by omega), List.mapIdx_cons]
    simp only [Nat.add_right_comm address 1]
    rfl

/-- Every digit of a word is a hexadecimal digit. -/
theorem isHex_of_mem_hexDigits {w : InstrWord} {c : Char} (h : c ∈ hexDigits w) : isHex c = true := by
  rw [hexDigits, List.mem_map] at h
  obtain ⟨d, -, rfl⟩ := h
  exact (digitValue_digitChar d).2

/-- The image of at most `2^16` words has the line of word `k` at place `k`. -/
theorem imageText_eq_ok {p : Params} {lines : List SourceLine} {ws : List InstrWord}
    (h : imageWords p lines = .ok ws) (hlen : ws.length ≤ 2 ^ 16) :
    imageText p lines = .ok (ws.mapIdx imageLineText) := by
  have hlines := imageLinesFrom_eq_ok 0 ws (by omega)
  simp only [Nat.zero_add] at hlines
  rw [imageText, h]
  exact hlines

/-- Settles O45: the digits of both numbers of an image line read back as the numbers. -/
theorem imageLinesCountUpFromZero : Obligations.ImageLinesCountUpFromZero := by
  refine ⟨imageWords_machine, fun p number text _ => imageWords_asciiz p number text, fun p lines ws hws hlen => ?_⟩
  refine ⟨_, imageText_eq_ok hws hlen, List.length_mapIdx, fun k w hk => ?_⟩
  have hline : (ws.mapIdx imageLineText)[k]? = some (imageLineText k w) := by
    rw [List.getElem?_mapIdx, hk]
    rfl
  refine ⟨_, _, hline, rfl, ?_, rfl, digitsValue_hexDigits w, fun c hc => ?_⟩
  · obtain ⟨hlt, -⟩ := List.getElem?_eq_some_iff.1 hk
    rw [digitsValue_hexDigits, BitVec.toNat_ofNat]
    exact Nat.mod_eq_of_lt (by omega)
  · exact (List.mem_append.1 hc).elim isHex_of_mem_hexDigits isHex_of_mem_hexDigits

end Sys2Proof.Machine
end

section
/-! SUPPORT. Proofs of the ALU family (spec/40_alu.md): the results of AND, ADDI and ORI (R90 to R93), and the datapath
that obeys the control outputs (spec/30_encoding.md R69). -/

namespace Sys2Proof.Machine

/-- A write-back advances the pc by 2 (R13). -/
theorem State.pcAdvances_writeBack (s : State) (r : RegIndex) (v : s.Word) : PcAdvances s (s.writeBack r v) :=
  s.pcPlus2_toNat

/-- Settles O7: the AND of two words is bitwise. -/
theorem andResult : Obligations.AndResult := by
  refine fun r1 r2 s => ⟨formatR_toNat _ r1 r2, _, rfl, fun i => ?_, s.pcAdvances_writeBack _ _,
    s.onlyRegisterChanges_writeBack _ _⟩
  rw [State.regVal_writeBack, aluResult, BitVec.toNat_and]
  exact Nat.testBit_and _ _ i

/-- Settles O8: the sum is taken modulo the width of a word, in which the immediate keeps its value. -/
theorem addiResult : Obligations.AddiResult := by
  refine fun r1 imm s hxlen => ⟨formatI_toNat _ r1 imm, _, rfl, ?_, s.pcAdvances_writeBack _ _,
    s.onlyRegisterChanges_writeBack _ _⟩
  rw [State.regVal_writeBack, aluResult, BitVec.toNat_add, immOperand_toNat hxlen]
  rfl

/-- Settles O9: the OR of a word and the widened immediate, which keeps its value, is bitwise. -/
theorem oriResult : Obligations.OriResult := by
  refine fun r1 imm s hxlen => ⟨formatI_toNat _ r1 imm, _, rfl, fun i => ?_, s.pcAdvances_writeBack _ _,
    s.onlyRegisterChanges_writeBack _ _⟩
  rw [State.regVal_writeBack, aluResult, BitVec.toNat_or, immOperand_toNat hxlen]
  exact Nat.testBit_or _ _ i

section
variable {c : Control} (s : State)

/-- The datapath on a control word that makes no data access always completes. -/
theorem Control.run_of_no_access (hread : c.dataRead = false) (hwrite : c.dataWrite = false) :
    c.run s = .next (s.commit (c.regsOut s 0#s.params.xlen) s.dmem (c.pcOut s)) := by
  simp [Control.run, Control.dataIn, Control.dataOut, hread, hwrite]

/-- The datapath on a control word that reads data memory: the address on port B is admitted, or the step is
discarded (R33, R153). -/
theorem Control.run_of_read (hread : c.dataRead = true) (hwrite : c.dataWrite = false) : c.run s =
    if admitted s.params (s.port c.readB).toNat
    then .next (s.commit
      (c.regsOut s (Memory.readWord s.order s.dmem s.params.xlen (s.port c.readB).toNat)) s.dmem (c.pcOut s))
    else .next (s.raise (.memFault (s.port c.readB).toNat .read)) := by
  by_cases h : admitted s.params (s.port c.readB).toNat
  · simp [Control.run, Control.dataIn, Control.dataOut, hread, hwrite, State.memRead_admitted h, h]
  · simp [Control.run, Control.dataIn, hread, State.memRead_not_admitted h, h]

/-- The datapath on a control word that writes data memory: port A goes to the address on port B, or the step is
discarded (R34, R153). -/
theorem Control.run_of_write (hread : c.dataRead = false) (hwrite : c.dataWrite = true) : c.run s =
    if admitted s.params (s.port c.readB).toNat
    then .next (s.commit (c.regsOut s 0#s.params.xlen)
      (Memory.writeWord s.order s.dmem (s.port c.readB).toNat (s.port c.readA)) (c.pcOut s))
    else .next (s.raise (.memFault (s.port c.readB).toNat .write)) := by
  by_cases h : admitted s.params (s.port c.readB).toNat
  · simp [Control.run, Control.dataIn, Control.dataOut, hread, hwrite, State.memWrite_admitted _ h, h]
  · simp [Control.run, Control.dataIn, Control.dataOut, hread, hwrite, State.memWrite_not_admitted _ h, h]

end

/-- Settles O32: by the data access that the control word makes, which only LW's and SW's do. -/
theorem controlOutputsDriveTheInstruction : Obligations.ControlOutputsDriveTheInstruction := by
  intro i s
  cases i with
  | and r1 r2 => exact Control.run_of_no_access s rfl rfl
  | addi r1 imm => exact Control.run_of_no_access s rfl rfl
  | ori r1 imm => exact Control.run_of_no_access s rfl rfl
  | lw r1 r2 => exact (Control.run_of_read s rfl rfl).trans (execLw_eq r1 r2 s).symm
  | sw r1 r2 => exact (Control.run_of_write s rfl rfl).trans (execSw_eq r1 r2 s).symm
  | j imm => exact Control.run_of_no_access s rfl rfl

end Sys2Proof.Machine
end

section
/-! SUPPORT. Proofs of the load and store family (spec/41_load_store.md): LW and SW at an admitted address and elsewhere
(R100, R101). -/

namespace Sys2Proof.Machine

section
variable {s : State} {r1 r2 : RegIndex}

/-- LW at an admitted address writes the word there back. -/
theorem exec_lw_admitted (h : admitted s.params (s.regVal r2)) : exec (.lw r1 r2) s =
    .next (s.writeBack r1 (Memory.readWord s.order s.dmem s.params.xlen (s.regVal r2))) :=
  (execLw_eq r1 r2 s).trans (if_pos h)

/-- LW elsewhere raises. -/
theorem exec_lw_not_admitted (h : ¬ admitted s.params (s.regVal r2)) :
    exec (.lw r1 r2) s = .next (s.raise (.memFault (s.regVal r2) .read)) :=
  (execLw_eq r1 r2 s).trans (if_neg h)

/-- SW at an admitted address commits the memory with the word written there. -/
theorem exec_sw_admitted (h : admitted s.params (s.regVal r2)) : exec (.sw r1 r2) s =
    .next (s.commit s.x (Memory.writeWord s.order s.dmem (s.effectiveAddress r2).toNat (s.reg r1)) s.pcPlus2) :=
  (execSw_eq r1 r2 s).trans (if_pos h)

/-- SW elsewhere raises. -/
theorem exec_sw_not_admitted (h : ¬ admitted s.params (s.regVal r2)) :
    exec (.sw r1 r2) s = .next (s.raise (.memFault (s.regVal r2) .write)) :=
  (execSw_eq r1 r2 s).trans (if_neg h)

end

/-- Settles O10: where it completes, LW is a write-back of the word at the old `x[r2]`. -/
theorem lwResult : Obligations.LwResult := by
  refine fun r1 r2 s => ⟨formatM_toNat _ r1 r2, fun h => ?_, exec_lw_not_admitted⟩
  exact ⟨_, exec_lw_admitted h, s.regVal_writeBack _ _, s.pcAdvances_writeBack _ _, s.onlyRegisterChanges_writeBack _ _⟩

/-- Settles O11: where it completes, SW is a word write, which is read back and leaves the bytes outside the word. -/
theorem swResult : Obligations.SwResult := by
  refine fun r1 r2 s hbytes hwf => ⟨formatM_toNat _ r1 r2, fun h => ?_, exec_sw_not_admitted⟩
  refine ⟨_, exec_sw_admitted h, ?_, fun a ha => ?_, s.pcPlus2_toNat, fun _ => rfl, rfl, rfl⟩
  · exact congrArg BitVec.toNat (Memory.readWord_writeWord_self hbytes hwf _ (s.reg r1))
  · exact Memory.readByte_writeWord_outside (s.reg r1) ha

end Sys2Proof.Machine
end

section
/-! SUPPORT. Proofs of the jump family (spec/42_jump.md): J's result (R110), and where the readings with 9 and with 13
replaced bits give the same target (R111). -/

namespace Sys2Proof.Machine

/-- Clearing more low bits gives the same target exactly if the immediate has every bit of the advanced pc among those
that the one mask keeps and the other clears. -/
theorem jumpTarget_eq_jumpTarget_iff {n k l : Nat} (hkl : k ≤ l) (p : BitVec n) (imm : BitVec 13) :
    jumpTarget k p imm = jumpTarget l p imm ↔ ∀ i, k ≤ i → i < l → p.getLsbD i = true → imm.getLsbD i = true := by
  constructor
  · intro h i hk hl hp
    have hi : i < n := BitVec.lt_of_getLsbD hp
    have hbit : (jumpTarget k p imm).getLsbD i = (jumpTarget l p imm).getLsbD i := by rw [h]
    rw [jumpTarget_getLsbD k p imm hi, jumpTarget_getLsbD l p imm hi] at hbit
    simpa [hk, Nat.not_le.2 hl, hp] using hbit
  · intro h
    apply BitVec.eq_of_getLsbD_eq
    intro i hi
    rw [jumpTarget_getLsbD _ _ _ hi, jumpTarget_getLsbD _ _ _ hi]
    by_cases hl : l ≤ i
    · simp [hl, hkl.trans hl]
    · by_cases hk : k ≤ i
      · simpa [hk, hl] using h i hk (by omega)
      · simp [hk, hl]

/-- Outside contested band U2, the immediate has every bit that the advanced pc has among 12:9 (R111). -/
theorem not_bandU2_iff {n : Nat} (p : BitVec n) (imm : BitVec 13) :
    ¬ bandU2 p imm ↔ ∀ i, 9 ≤ i → i < 13 → p.getLsbD i = true → imm.getLsbD i = true := by
  rw [bandU2, not_not]
  constructor
  · intro h i h9 h13 hp
    obtain ⟨j, rfl⟩ := Nat.exists_eq_add_of_le h9
    have hj : j < 4 := by omega
    have hbit := congrArg (BitVec.getLsbD · j) h
    simpa [hj, hp] using hbit
  · intro h
    apply BitVec.eq_of_getLsbD_eq
    intro j hj
    simpa [hj] using h (9 + j) (by omega) (by omega)

/-- An advanced pc below `0x200` has no bit in contested band U2. -/
theorem not_bandU2_of_lt {n : Nat} {p : BitVec n} (h : p.toNat < 0x200) (imm : BitVec 13) : ¬ bandU2 p imm := by
  rw [not_bandU2_iff]
  intro i h9 _ hp
  have hle : 2 ^ i ≤ p.toNat := Nat.ge_two_pow_of_testBit hp
  have hpow : 2 ^ 9 ≤ 2 ^ i := Nat.pow_le_pow_right (by decide) h9
  omega

/-- Advancing a pc below `0x1FE` stays in the first 512-byte region. -/
theorem advanced_lt_of_lt {n : Nat} {pc : BitVec n} (h : pc.toNat < 0x1FE) : (pc + 2#n).toNat < 0x200 := by
  have hadd : (pc + 2#n).toNat ≤ pc.toNat + 2 := by
    rw [BitVec.toNat_add, BitVec.toNat_ofNat, Nat.add_mod_mod]
    exact Nat.mod_le _ _
  omega

/-- Settles O13: both sides of the equivalence say that the immediate has the bits 12:9 of the advanced pc. -/
theorem jumpReadingsAgreeOutsideBandU2 : Obligations.JumpReadingsAgreeOutsideBandU2 := by
  refine fun n _ p imm => ⟨fun i hi => ?_, ?_, fun pc hpc => not_bandU2_of_lt (advanced_lt_of_lt hpc) imm⟩
  · rw [jumpTarget_getLsbD 9 p imm hi]
    split_ifs with h9 h13
    · simp [h9]
    · simp [Nat.not_lt.1 h9]
    · simp [Nat.not_lt.1 h9, BitVec.getLsbD_of_ge imm i (Nat.not_lt.1 h13)]
  · rw [not_bandU2_iff]
    exact jumpTarget_eq_jumpTarget_iff (by decide) p imm

/-- Settles O12: J commits its target, and the registers and data memory as they were. -/
theorem jResult : Obligations.JResult := by
  refine fun imm s hn => ⟨formatJ_toNat _ imm, _, rfl, fun i => ?_, fun _ => rfl, fun _ => rfl, rfl, rfl⟩
  change (jumpTarget s.params.jReplaceBits s.pcPlus2 imm).toNat.testBit i = _
  rw [State.jumpTarget_toNat hn, Nat.testBit_or, Nat.testBit_mul_two_pow, Nat.testBit_div_two_pow]
  by_cases hk : s.params.jReplaceBits ≤ i
  · simp [hk]
  · simp [hk]

end Sys2Proof.Machine
end

section
/-! SUPPORT. Proofs of the exceptions family (spec/60_exceptions.md): raising a fault (R124), and the faulted core
(R125). -/

namespace Sys2Proof.Machine

/-- An instruction that does not leave a running core running has raised a `MemFault` and done nothing else (R124). -/
theorem ExecCase.eq_raise {i : Instr} {s t : State} (h : ExecCase i s t) (hs : s.status = .running)
    (ht : t.status ≠ .running) : ∃ a k, t = s.raise (.memFault a k) := by
  cases h with
  | raised r2 k _ => exact ⟨_, k, rfl⟩
  | wrote r v => exact absurd hs ht
  | stored r1 r2 hi h => exact absurd hs ht
  | jumped imm hi => exact absurd hs ht

/-- A step that does not leave the core running has raised the fault of its fetch or decode, or a `MemFault`
(R121, R122, R124). -/
theorem eq_raise_of_step {s t : State} (h : step s = .next t) (ht : t.status ≠ .running) :
    ∃ f, t = s.raise f ∧ (s.fetchDecode = .error f ∨ ∃ a k, f = .memFault a k) := by
  obtain ⟨hr, -, ⟨f, hf, heq⟩ | ⟨i, -, hx⟩⟩ := step_cases h
  · exact ⟨f, heq, .inl hf⟩
  · obtain ⟨a, k, heq⟩ := (execCase_of_exec hx).eq_raise hr ht
    exact ⟨_, heq, .inr ⟨a, k, rfl⟩⟩

/-- The address of a `FetchFault` is the pc at which the fetch failed (R32). -/
theorem State.fetchDecode_fetchFault {s : State} {a : Nat} (h : s.fetchDecode = .error (.fetchFault a)) :
    a = s.pcVal := by
  obtain heq | ⟨_ | _, heq⟩ := State.fetchDecode_error h <;> cases heq
  rfl

/-- Settles O20: a raise is the whole effect of the step, and only a fetch raises `FetchFault`. -/
theorem raisingChangesTheStatusAlone : Obligations.RaisingChangesTheStatusAlone := by
  intro s t h ht
  obtain ⟨f, heq, hf⟩ := eq_raise_of_step h ht
  refine ⟨f, heq, ?_⟩
  rintro a rfl
  obtain hfetch | ⟨b, k, hmem⟩ := hf
  · exact State.fetchDecode_fetchFault hfetch
  · cases hmem

/-- A state that one granted step leaves as it is, any number of granted steps leaves as it is. -/
theorem State.grants_of_grant_eq {s : State} (h : s.grant = s) : ∀ n, s.grants n = s
  | 0 => rfl
  | n + 1 => by rw [State.grants, h, State.grants_of_grant_eq h n]

/-- Settles O21: a grant does nothing to a core that has no step. -/
theorem faultedCoreStaysUntilReset : Obligations.FaultedCoreStaysUntilReset := fun s _ h =>
  ⟨step_faulted h, State.grants_of_grant_eq (State.grant_faulted h), State.resetWith_status s.launch⟩

end Sys2Proof.Machine
end

section
/-! SUPPORT. Proofs of the reset and hazards family (spec/70_reset_and_hazards.md): the first fetch after reset (R140),
and runs whose state no longer changes (R151). -/

namespace Sys2Proof.Machine

/-- Data memory at reset under a unified memory holds each program word at twice its word address. -/
theorem readWord_dmemAtReset_unified {l : Launch} (hu : l.params.unifiedMem = true) (hwf : Memory.wf l.dmemInit) {i : Nat}
    (hi : i < l.program.length) : Memory.readWord l.byteOrder l.dmemAtReset 16 (2 * i) = l.program[i] := by
  rw [Launch.dmemAtReset, if_pos hu]
  simpa only [Nat.zero_add] using Memory.readWord_placeWords l.program 0 i hwf hi

/-- The first fetch after reset answers the program word at `RESET_PC`, in separate memories and in a unified one. -/
theorem State.fetch_resetWith {l : Launch} (hl : l.WellFormed) {w : InstrWord}
    (hw : l.program[l.resetPc.toNat / 2]? = some w) : (State.resetWith l).fetch = .ok w := by
  obtain ⟨-, -, hwf, -⟩ := hl
  rw [State.fetch_inside (s := State.resetWith l) hw]
  split
  case isTrue hu =>
    obtain ⟨hi, rfl⟩ := List.getElem?_eq_some_iff.1 hw
    exact congrArg _ (readWord_dmemAtReset_unified hu hwf hi)
  case isFalse => rfl

/-- Settles O2: nothing but the launch survives the reset event, and the word at `RESET_PC` = 0 is the program's first. -/
theorem resetEventWorksInEveryState : Obligations.ResetEventWorksInEveryState := by
  intro s hl
  refine ⟨rfl, rfl, fun _ => rfl, rfl, dmemAtReset_separate, fun hpc w ws hprogram => State.fetch_resetWith hl ?_⟩
  rw [hpc, hprogram]
  rfl

/-- A granted step leaves the core as it is if the run has ended, or if the step answers the state itself. -/
theorem State.grant_eq_self {s : State} (h : s.Ended ∨ step s = .next s) : s.grant = s := by
  rcases h with hended | hidle
  · cases hs : s.status with
    | running => exact absurd hs hended
    | faulted f => exact State.grant_faulted hs
  · exact State.grant_of_step hidle

/-- Settles O41: the `n - m` grants after the first `m` leave a state that one grant leaves as it is. -/
theorem finalStateHolds : Obligations.FinalStateHolds := by
  intro l m n hmn h
  obtain ⟨k, rfl⟩ := Nat.exists_eq_add_of_le hmn
  exact (State.grants_add (State.resetWith l) m k).trans (State.grants_of_grant_eq (State.grant_eq_self h) k)

end Sys2Proof.Machine
end

section
/-! SUPPORT. Proofs of the decoder's test vectors (spec/95_test_vectors.md section 2.1) and of the fetch from a unified
memory after a store (notes/assumptions/9.md). -/

namespace Sys2Proof.Machine

/-- Settles O31: eight closed decodings, each computed by the decoder. -/
theorem vectorWordsDecode : Obligations.VectorWordsDecode :=
  ⟨by decide, by decide, by decide, by decide, by decide, by decide, by decide, by decide⟩

/-- A written word is read back at another expression of its width. -/
theorem Memory.readWord_writeWord_of_width_eq {o : ByteOrder} {w w' : Nat} (hw : w = w') (hbytes : w' % 8 = 0) {m : Memory}
    (h : Memory.wf m) (a : Nat) (v : BitVec w) :
    Memory.readWord o (Memory.writeWord o m a v) w' a = BitVec.ofNat w' v.toNat := by
  subst hw
  rw [Memory.readWord_writeWord_self hbytes h, BitVec.ofNat_toNat, BitVec.setWidth_eq]

/-- Under a unified memory the fetch at an even pc inside the program answers the word data memory holds there. -/
theorem State.fetch_unified {s : State} (hu : s.params.unifiedMem = true) {a : Nat} (hpc : s.pcVal = a) (heven : a % 2 = 0)
    (hlt : a < 2 * s.launch.program.length) : s.fetch = .ok (Memory.readWord s.order s.dmem 16 a) := by
  subst hpc
  have hk : s.pcVal / 2 < s.launch.program.length := by omega
  rw [State.fetch_inside (List.getElem?_eq_getElem hk), if_pos hu, Nat.mul_div_cancel' (Nat.dvd_of_mod_eq_zero heven)]

/-- At `XLEN` = 16 an admitted address is even (R36). -/
theorem even_of_admitted {p : Params} (hx : p.xlen = 16) {a : Nat} (h : admitted p a) : a % 2 = 0 := by
  obtain ⟨halign, -⟩ := h
  rwa [Params.wordBytes, hx] at halign

/-- Settles O37: at `XLEN` = 16 the stored word is one instruction word, and the fetch at its address reads it back. -/
theorem unifiedStoreReachesFetch : Obligations.UnifiedStoreReachesFetch := by
  intro r1 r2 s hu hx hwf hadm hlt
  have hread := Memory.readWord_writeWord_of_width_eq (o := s.order) hx (by rfl) hwf (s.regVal r2) (s.reg r1)
  refine ⟨_, exec_sw_admitted hadm, fun q hq => ?_⟩
  refine Eq.trans (State.fetch_unified ?_ ?_ (even_of_admitted hx hadm) ?_) (congrArg Except.ok hread)
  exacts [hu, hq, hlt]

end Sys2Proof.Machine
end
